-- ==== Sys2Proof/Word.lean ====
section
/-! DEFINITION. The value types that cross the BIU's ports: 32-bit words (R18, R45), bytes of the text stream (R31),
16-bit command operands (R62). All values are unsigned (R12). -/

namespace Sys2Proof

/-- A word register, a command word or a response data word (R18, R60, R29). -/
abbrev Word := BitVec 32

/-- One byte of the text stream (R31). -/
abbrev Byte := BitVec 8

/-- The operand field of a command word, an unsigned 16-bit natural (R62). -/
abbrev Operand := BitVec 16

end Sys2Proof
end

