-- ==== Sys2Proof/Syntax.lean ====
section
/-! DEFINITION. The six commands (R61), one constructor per row of spec/opcode_table.json, and what decoding a command
word answers (R65). An operand is the 16-bit field itself, so an operand that the field cannot carry is no term
(R62, 93_implementation_defined.md R-3): every `Instr` is well formed by its type. -/

namespace Sys2Proof

/-- A command of the BIU. -/
inductive Instr where
  /-- CONSTRUCT `S` (R80). -/
  | construct (size : Operand)
  /-- GET `N` (R104). -/
  | get (index : Operand)
  /-- SET `N` (R110). -/
  | set (index : Operand)
  /-- SWAP `N` (R120). -/
  | swap (index : Operand)
  /-- CLEAR (R140). -/
  | clear
  /-- DUMP (R154). -/
  | dump
deriving DecidableEq, Repr

/-- Why a command word is illegal (R64). The unit reports one code for all three; the names are the model's
(DESIGN CHOICE, log 11, safe: no state depends on them). -/
inductive IllegalReason where
  /-- `RSV` is not 0. -/
  | reservedNotZero
  /-- `OPC` is 0x0 or in 0x7 to 0xF. -/
  | opcode
  /-- CLEAR or DUMP with a non-zero operand. -/
  | operandNotZero
deriving DecidableEq, Repr

/-- The answer of the decoder, total on command words (R65). -/
inductive Decoded where
  | legal (i : Instr)
  | illegal (why : IllegalReason)
deriving DecidableEq, Repr

end Sys2Proof
end

