-- ==== Sys2Proof/WellFormed.lean ====
section
/-! DEFINITION. Which command words are well formed: rule R64's three conditions, read off the word itself and written
apart from the decoder (Decode.lean), so that the two can be compared. An `Instr` needs no check of its own: its operand
is the 16-bit field (R62). -/

namespace Sys2Proof.CommandWord

/-- Bits 31:28 name one of the six commands (R61). -/
def opcodeKnown (w : Word) : Bool := 1 ≤ (w >>> 28).toNat && (w >>> 28).toNat ≤ 6

/-- Bits 27:16 are 0 (R60). -/
def reservedClear (w : Word) : Bool := (w >>> 16).toNat % 4096 == 0

/-- CLEAR and DUMP carry operand 0 (R60, R64). -/
def operandAllowed (w : Word) : Bool :=
  !((w >>> 28).toNat == 5 || (w >>> 28).toNat == 6) || w.toNat % 65536 == 0

/-- A command word that rule R64 does not make illegal. -/
def wellFormed (w : Word) : Bool := opcodeKnown w && reservedClear w && operandAllowed w

end Sys2Proof.CommandWord
end

