-- ==== Sys2Proof/Decode.lean ====
section
/-! DEFINITION. From command words to commands and back (30_encoding.md): the fields of the word (R60), the decoder,
total on every word (R65), the encoder (R61, R67), the opcode table as mask and pattern rows (R65), and the host's
`decodeTableWord`. The unit has no byte order: a command word is one 32-bit value (R45). -/

namespace Sys2Proof

/-- `OPC`, bits 31:28 (R60). -/
def opcodeField (w : Word) : BitVec 4 := w.extractLsb' 28 4

/-- `RSV`, bits 27:16 (R60). -/
def reservedField (w : Word) : BitVec 12 := w.extractLsb' 16 12

/-- `OPND`, bits 15:0 (R60). -/
def operandField (w : Word) : Operand := w.extractLsb' 0 16

/-- `decode` of rule R65. -/
def decode (w : Word) : Decoded :=
  if reservedField w ≠ 0 then .illegal .reservedNotZero
  else
    match (opcodeField w).toNat with
    | 1 => .legal (.construct (operandField w))
    | 2 => .legal (.get (operandField w))
    | 3 => .legal (.set (operandField w))
    | 4 => .legal (.swap (operandField w))
    | 5 => if operandField w = 0 then .legal .clear else .illegal .operandNotZero
    | 6 => if operandField w = 0 then .legal .dump else .illegal .operandNotZero
    | _ => .illegal .opcode

/-- The command word of a command, as rule R67's assembler forms it from the opcode map of R61. -/
def encode : Instr → Word
  | .construct s => 0x10000000#32 ||| s.setWidth 32
  | .get n => 0x20000000#32 ||| n.setWidth 32
  | .set n => 0x30000000#32 ||| n.setWidth 32
  | .swap n => 0x40000000#32 ||| n.setWidth 32
  | .clear => 0x50000000#32
  | .dump => 0x60000000#32

/-- One row of spec/opcode_table.json: a word is a row's when `word AND mask` is its pattern (R65). -/
structure TableRow where
  mask : Word
  pattern : Word
deriving DecidableEq, Repr

/-- The row of a command. -/
def tableRow : Instr → TableRow
  | .construct _ => ⟨0xFFFF0000#32, 0x10000000#32⟩
  | .get _ => ⟨0xFFFF0000#32, 0x20000000#32⟩
  | .set _ => ⟨0xFFFF0000#32, 0x30000000#32⟩
  | .swap _ => ⟨0xFFFF0000#32, 0x40000000#32⟩
  | .clear => ⟨0xFFFFFFFF#32, 0x50000000#32⟩
  | .dump => ⟨0xFFFFFFFF#32, 0x60000000#32⟩

/-- Does the row match the word? -/
def TableRow.covers (r : TableRow) (w : Word) : Bool := w &&& r.mask == r.pattern

/-- The command word that the low `nbits` bits of `w` are, every bit above them 0 (log 9). -/
def wordOfBits (nbits w : Nat) : Word := BitVec.ofNat 32 (w % 2 ^ nbits)

/-- The command the decoder reads from a word given by its bits; `none` where the decoder refuses (R64). -/
def decodeTableWord (nbits w : Nat) : Option Instr :=
  match decode (wordOfBits nbits w) with
  | .legal i => some i
  | .illegal _ => none

end Sys2Proof
end

