-- ==== Sys2Proof/Config.lean ====
section
/-! DEFINITION. The unit's parameters, each fixed for this hardware (R10). No parameter is left open and the spec leaves
no value free, so nothing here is opaque. -/

namespace Sys2Proof.Config

/-- `W`: bits per backing word (R10, R22). -/
def wordBits : Nat := 32

/-- `MAXSIZE`: the largest legal size (R10). -/
def maxSize : Nat := 256

/-- `MAXW`: the number of physical word registers (R10, R23). -/
def maxWords : Nat := 8

/-- `LABEL_W`: the width, in characters, of the DUMP row label (R10, R153). -/
def labelWidth : Nat := 3

/-- `NW(SIZE) = ceil(SIZE / 32)`: the active words of an instance (R10, R24). -/
def activeWords (size : Nat) : Nat := (size + wordBits - 1) / wordBits

end Sys2Proof.Config
end

