-- ==== Sys2Proof/Machine/State.lean ====
section
/-! DEFINITION. The state of the unit (10_state.md R36, R37), what the host observes (R30, R31), the host's side of the
two input ports (R34, R210), and the reasons a step can stop. Plain data. -/

namespace Sys2Proof.Machine

/-- `MODE` (R27). -/
inductive Mode where
  /-- Ready to accept a command. -/
  | idle
  /-- A DUMP renders: no command is accepted (R220). -/
  | dumping
deriving DecidableEq, Repr

/-- One entry of the response log (R30). -/
structure Response where
  status : BitVec 3
  data : Word
deriving DecidableEq, Repr

/-- The unit's registers, its two logs, and the host's two inputs. -/
@[ext]
structure State where
  /-- `VALID`: the unit holds an instance (R20). -/
  valid : Bool
  /-- `SIZE`: the declared capacity in bits (R21). -/
  size : BitVec 9
  /-- `WORD[0]` to `WORD[7]`: the store (R23). -/
  words : Vector Word 8
  /-- `MODE` (R27). -/
  mode : Mode
  /-- `DUMP_I`: the offset of the next row the renderer emits (R28). -/
  dumpI : BitVec 9
  /-- `RSP_STATUS`: the status code of the last response (R29, R180). -/
  rspStatus : BitVec 3
  /-- `RSP_DATA`: the data word of the last response (R29). -/
  rspData : Word
  /-- The response log, oldest first (R30). -/
  rspLog : List Response
  /-- The text log, oldest byte first (R31). -/
  textLog : List Byte
  /-- The host's command list, the program of a model (R34; DEDUCED, log 1). -/
  program : List Word
  /-- The index of the next command of `program` (R34; DEDUCED, log 1). -/
  pc : Nat
  /-- The host's reset requests: the head is how many steps the unit takes before the next one, and each later entry
  counts from the reset before it (R210; DESIGN CHOICE, log 2). -/
  resetIn : List Nat
deriving DecidableEq, Repr

/-- The stops of the model, log 5 (DESIGN CHOICE). Each is raised only where the spec defines no value because it says
the register combination never occurs; no run from reset reaches one. All are safe: the model stops. -/
inductive Fault where
  /-- A word index above 7 (R15 defines `WORD[k]` for `k <= 7`). Raised by GET, SET and SWAP where SIZE is above 256, and
  by the renderer where DUMP_I is no row offset of SIZE; safe. -/
  | noSuchWord
  /-- The renderer takes `log2` of a SIZE that is no power of two (R14 leaves it undefined). Raised by the renderer; safe. -/
  | sizeNotPowerOfTwo
  /-- The renderer counts rows of width 0 (R13 defines `div` for a divisor above 0). Raised by the completion step; safe. -/
  | rowWidthZero
deriving DecidableEq, Repr

/-- Refusals. No command of the BIU is refused: the one constructor is the host's form for an arm that has no meaning
yet. Safe. -/
inductive Refusal where
  /-- Raised by an arm of `exec` that has no meaning yet; safe (none is left). -/
  | notModelled (mnemonic : String)
deriving DecidableEq, Repr

/-- The outcome of one step. -/
abbrev Result := Host.Outcome State Fault Refusal

/-- The machine right after reset, at the start of a run: every register at the value of R210 and R36, both logs empty
(R30, R31), and the host's side empty (log 1, log 2). -/
def State.reset : State where
  valid := false
  size := 0
  words := Vector.replicate 8 0
  mode := .idle
  dumpI := 0
  rspStatus := 0
  rspData := 0
  rspLog := []
  textLog := []
  program := []
  pc := 0
  resetIn := []

end Sys2Proof.Machine
end

