-- ==== Sys2Proof/Machine/Flags.lean ====
section
/-! DEFINITION. The status codes (R180) and the two 1-bit readings the spec gives: the truth of a GET result (R33) and
the bit of MODE (R36). The unit has no condition flags (R33). -/

namespace Sys2Proof.Machine

/-- The statuses the unit produces (R180). Codes 6 and 7 are reserved and never produced, so they have no name. -/
inductive Status where
  | ok
  | notPowerOfTwo
  | exceedsCapacity
  | indexOutOfRange
  | notConstructed
  | illegalCommand
deriving DecidableEq, Repr

/-- The 3-bit code of a status (R180). -/
def Status.code : Status → BitVec 3
  | .ok => 0
  | .notPowerOfTwo => 1
  | .exceedsCapacity => 2
  | .indexOutOfRange => 3
  | .notConstructed => 4
  | .illegalCommand => 5

/-- The truth value a host reads from a GET result: `RSP_DATA != 0` (R33, R105). -/
def State.truthy (s : State) : Bool := s.rspData != 0

/-- The 1-bit reading of MODE: IDLE is 0, DUMPING is 1 (R36). -/
def Mode.code : Mode → BitVec 1
  | .idle => 0
  | .dumping => 1

end Sys2Proof.Machine
end

