-- ==== Sys2Proof/Machine/Operands.lean ====
section
/-! DEFINITION. Operand arithmetic and operand checks: word select, bit offset and mask (R100 to R102), the power-of-two
test and its logarithm (R14), the size check of CONSTRUCT (R81) and the index check of GET, SET and SWAP (R103). -/

namespace Sys2Proof.Machine

/-- `wordIndex(n) = n div 32` (R100). -/
def wordIndex (n : Nat) : Nat := n / Config.wordBits

/-- `bitOffset(n) = n mod 32` (R101). -/
def bitOffset (n : Nat) : Nat := n % Config.wordBits

/-- `mask(n) = 1 << bitOffset(n)` (R102). -/
def mask (n : Nat) : Word := 1#32 <<< bitOffset n

/-- `is_pow2(s)` (R14): `s` is the power of two its own binary length gives. -/
def isPow2 (s : Nat) : Bool := s == 2 ^ Nat.log2 s

/-- `log2(s)`, defined only when `is_pow2(s)` (R14). -/
def log2? (s : Nat) : Option Nat := if isPow2 s then some (Nat.log2 s) else none

/-- `zext_32` of an operand (R12). -/
def zext32 (n : Operand) : Word := n.setWidth 32

/-- The validation of a size: power of two first, capacity second (R81); `none` when the size is legal. -/
def checkSize (size : Operand) : Option Status :=
  if !isPow2 size.toNat then some .notPowerOfTwo
  else if Config.maxSize < size.toNat then some .exceedsCapacity
  else none

/-- `check_index` of R103, in its order; `none` when the index is accepted. -/
def checkIndex (n : Operand) (s : State) : Option Status :=
  if !s.valid then some .notConstructed
  else if s.size.toNat ≤ n.toNat then some .indexOutOfRange
  else none

end Sys2Proof.Machine
end

