-- ==== Sys2Proof/Machine/Ops.lean ====
section
/-! DEFINITION. The named operations over the state: reading and writing word registers and bits (R15, R42), the
response and text ports (R16), the one shared form of every error (R16, R183), reset (R210), acceptance (R220) and the
host's position in its command list (R34). There is no trap and no return from one (R191, R192): an error is a response
and the next command runs normally (R184). -/

namespace Sys2Proof.Machine

/-- `WORD[k]`, defined for `k <= 7` (R15). -/
def State.word? (s : State) (k : Nat) : Option Word := s.words[k]?

/-- `WORD[k] <- v` (R15). -/
def State.setWord (s : State) (k : Nat) (v : Word) : State := { s with words := s.words.setIfInBounds k v }

/-- Every word register gets 0: the zeroing of CONSTRUCT, CLEAR and reset (R84, R140, R210). -/
def State.zeroWords (s : State) : State := { s with words := Vector.replicate 8 0 }

/-- `BitRead(p)`, bit `p mod 32` of word `p div 32` (R42), defined for `p < 256`. -/
def State.bitRead? (s : State) (p : Nat) : Option Bool := (s.word? (wordIndex p)).map (·.getLsbD (bitOffset p))

/-- `respond(st, d)` (R16). -/
def State.respond (s : State) (st : Status) (d : Word) : State :=
  { s with rspStatus := st.code, rspData := d, rspLog := s.rspLog ++ [⟨st.code, d⟩] }

/-- `raise E(d)` (R16): what every error does, and all it does (R183). -/
def State.raise (s : State) (e : Status) (d : Word) : State := s.respond e d

/-- `emit(text)` (R16). -/
def State.emit (s : State) (text : List Byte) : State := { s with textLog := s.textLog ++ text }

/-- `VALID <- 1` and `SIZE <- size` (R84). -/
def State.setInstance (s : State) (size : BitVec 9) : State := { s with valid := true, size := size }

/-- `MODE <- m` (R27). -/
def State.setMode (s : State) (m : Mode) : State := { s with mode := m }

/-- `DUMP_I <- i` (R28). -/
def State.setDumpI (s : State) (i : BitVec 9) : State := { s with dumpI := i }

/-- The host's next command is accepted: its index advances by exactly 1 (R34). -/
def State.advance (s : State) : State := { s with pc := s.pc + 1 }

/-- What is left of the host's reset requests (log 2). -/
def State.setResetIn (s : State) (r : List Nat) : State := { s with resetIn := r }

/-- The command the host presents, if any (R34). -/
def State.presented (s : State) : Option Word := s.program[s.pc]?

/-- `RESET()` of R210: every register to its reset value; no response, no text, the logs kept (R210), and the host's
command list, position and later reset requests kept, since they are host state (R221). -/
def State.resetUnit (s : State) : State :=
  { s with
    valid := false
    size := 0
    words := Vector.replicate 8 0
    mode := .idle
    dumpI := 0
    rspStatus := 0
    rspData := 0 }

/-- A command's effect, taken only while `MODE = IDLE`. While DUMPING the command is not accepted and stays with the
host, so nothing changes (R155, R220; DEDUCED, log 8: the step never asks this). -/
def whenIdle (s : State) (effect : Result) : Result :=
  match s.mode with
  | .idle => effect
  | .dumping => .next s

/-- An effect that needs an instance; without one, `NOT_CONSTRUCTED` with the datum given (R186). -/
def whenConstructed (s : State) (datum : Word) (effect : Result) : Result :=
  if s.valid then effect else .next (s.raise .notConstructed datum)

/-- An effect on the word that holds bit `n`, after the operand check shared by GET, SET and SWAP (R103). -/
def withIndexedWord (n : Operand) (s : State) (effect : Word → State) : Result :=
  match checkIndex n s with
  | some e => .next (s.raise e (zext32 n))
  | none =>
    match s.word? (wordIndex n.toNat) with
    | some w => .next (effect w)
    | none => .fault .noSuchWord

end Sys2Proof.Machine
end

