-- ==== Sys2Proof/Machine/BitAccess.lean ====
section
/-! DEFINITION. The bit access family (41_bit_access.md): GET, SET, SWAP. -/

namespace Sys2Proof.Machine

/-- GET `N` (R104): the addressed word masked to bit `N`, in its own position (R105). -/
def execGet (n : Operand) (s : State) : Result :=
  whenIdle s <| withIndexedWord n s fun w => s.respond .ok (w &&& mask n.toNat)

/-- SET `N` (R110): the mask is ORed into the addressed word. -/
def execSet (n : Operand) (s : State) : Result :=
  whenIdle s <| withIndexedWord n s fun w =>
    (s.setWord (wordIndex n.toNat) (w ||| mask n.toNat)).respond .ok 0

/-- SWAP `N` (R120): the mask is XORed into the addressed word. -/
def execSwap (n : Operand) (s : State) : Result :=
  whenIdle s <| withIndexedWord n s fun w =>
    (s.setWord (wordIndex n.toNat) (w ^^^ mask n.toNat)).respond .ok 0

end Sys2Proof.Machine
end

