-- ==== Sys2Proof/Machine/Clear.lean ====
section
/-! DEFINITION. The store reset family (42_clear.md): CLEAR. -/

namespace Sys2Proof.Machine

/-- CLEAR (R140): every word 0, the size kept (R141). -/
def execClear (s : State) : Result :=
  whenIdle s <| whenConstructed s 0 <| .next (s.zeroWords.respond .ok 0)

end Sys2Proof.Machine
end

