-- ==== Sys2Proof/Machine/Construct.lean ====
section
/-! DEFINITION. The construction family (40_construct.md): CONSTRUCT. -/

namespace Sys2Proof.Machine

/-- CONSTRUCT `S` (R80 to R85). A refused size changes nothing but the response (R82); a legal one (at most 256, so that
it fits the 9-bit SIZE) replaces whatever instance there was. -/
def execConstruct (size : Operand) (s : State) : Result :=
  whenIdle s <|
    match checkSize size with
    | some e => .next (s.raise e (zext32 size))
    | none => .next (((s.setInstance (size.setWidth 9)).zeroWords).respond .ok 0)

end Sys2Proof.Machine
end

