-- ==== Sys2Proof/Machine/Text.lean ====
section
/-! DEFINITION. The text of the renderer: decimal spelling and padding (R17) and the line of a row (R152, R153). The
ASCII codes are the spec's, which marks them as general knowledge (log 12). -/

namespace Sys2Proof.Machine

/-- ASCII space (R153). -/
def spaceByte : Byte := 0x20

/-- ASCII line feed (R153). -/
def lineFeed : Byte := 0x0A

/-- The ASCII digit of a number below 10 (R152). -/
def digitByte (d : Nat) : Byte := BitVec.ofNat 8 (0x30 + d)

/-- The decimal digits of `n`, most significant first, with no leading zero; `fuel` bounds their number. -/
def decimalDigits : Nat → Nat → List Nat
  | 0, _ => []
  | fuel + 1, n => if n < 10 then [n] else decimalDigits fuel (n / 10) ++ [n % 10]

/-- `dec(n)`: the decimal spelling of `n` (R17). -/
def dec (n : Nat) : List Byte := (decimalDigits (n + 1) n).map digitByte

/-- `pad(s, w)`: spaces before `s` until it has `w` characters (R17). -/
def pad (s : List Byte) (w : Nat) : List Byte := List.replicate (w - s.length) spaceByte ++ s

/-- The token of a bit: `1` or `0` (R152). -/
def token (b : Bool) : Byte := if b then digitByte 1 else digitByte 0

/-- One row of the grid: its offset and its bits, in column order (R151, R162). -/
structure Row where
  offset : Nat
  bits : List Bool
deriving DecidableEq, Repr

/-- `line(i)`: the padded offset, a space and a token for each bit, a line feed (R153). -/
def Row.line (r : Row) : List Byte :=
  pad (dec r.offset) Config.labelWidth ++ r.bits.flatMap (fun b => [spaceByte, token b]) ++ [lineFeed]

end Sys2Proof.Machine
end

