-- ==== Sys2Proof/Machine/Dump.lean ====
section
/-! DEFINITION. The bit-grid renderer (43_dump.md): DUMP's acceptance (R154) and the renderer's steps (R156, R157). -/

namespace Sys2Proof.Machine

/-- DUMP (R154): the renderer starts at row offset 0; the response comes with the completion step (R157). -/
def execDump (s : State) : Result :=
  whenIdle s <| whenConstructed s 0 <| .next ((s.setMode .dumping).setDumpI 0)

/-- `slide = 2 * base`: the row width of a base (R150). -/
def slideOf (base : Nat) : Nat := 2 * base

/-- `rows = ceil(SIZE / slide)` (R157). -/
def rowCount (size slide : Nat) : Nat := (size + slide - 1) / slide

/-- The bits at `count` positions from `p` on, each by `BitRead`, with no index check (R156, R158). -/
def State.bitsFrom? (s : State) (p : Nat) : Nat → Option (List Bool)
  | 0 => some []
  | count + 1 =>
    match s.bitRead? p, s.bitsFrom? (p + 1) count with
    | some b, some bs => some (b :: bs)
    | _, _ => none

/-- `RENDER_ROW()` of R156: the whole row at DUMP_I is emitted, past SIZE where the geometry goes there (R151). -/
def renderRow (slide : Nat) (s : State) : Result :=
  match s.bitsFrom? s.dumpI.toNat slide with
  | some bits =>
    .next ((s.emit (Row.line ⟨s.dumpI.toNat, bits⟩)).setDumpI (BitVec.ofNat 9 (s.dumpI.toNat + slide)))
  | none => .fault .noSuchWord

/-- The completion step of R157: back to IDLE, with the number of rows as the datum of the response. -/
def renderDone (slide : Nat) (s : State) : Result :=
  if slide = 0 then .fault .rowWidthZero
  else .next ((s.setMode .idle).respond .ok (BitVec.ofNat 32 (rowCount s.size.toNat slide)))

/-- One step of the renderer: a row while `DUMP_I < SIZE`, else completion (R156, R157). At SIZE = 1 the row width is 0
and DUMP_I never advances, so the first case holds for ever (R160). -/
def renderStep (s : State) : Result :=
  match log2? s.size.toNat with
  | none => .fault .sizeNotPowerOfTwo
  | some base =>
    if s.dumpI.toNat < s.size.toNat then renderRow (slideOf base) s else renderDone (slideOf base) s

end Sys2Proof.Machine
end

