-- ==== Sys2Proof/Machine/Dispatch.lean ====
section
/-! DEFINITION. The effect of one command, one arm per row of the opcode table. -/

namespace Sys2Proof.Machine

def exec (i : Instr) (s : State) : Host.Outcome State Fault Refusal :=
  match i with
  | .construct size => Sys2Proof.Machine.execConstruct size s
  | .get index => Sys2Proof.Machine.execGet index s
  | .set index => Sys2Proof.Machine.execSet index s
  | .swap index => Sys2Proof.Machine.execSwap index s
  | .clear => Sys2Proof.Machine.execClear s
  | .dump => Sys2Proof.Machine.execDump s

end Sys2Proof.Machine
end

