-- ==== Sys2Proof/Machine/Sequencer.lean ====
section
/-! DEFINITION. What moves when: reset between two steps (R210), the renderer while DUMPING (R155), acceptance of the
host's next command while IDLE (R220). -/

namespace Sys2Proof.Machine

/-- An accepted command word: a command's own effect, or `ILLEGAL_COMMAND` with the word as its datum, before any other
check (R64, R185). -/
def acceptWord (w : Word) (s : State) : Result :=
  match decode w with
  | .legal i => exec i s
  | .illegal _ => .next (s.raise .illegalCommand w)

/-- IDLE: the command the host presents is accepted (R220); with none presented the unit waits, unchanged
(DESIGN CHOICE, log 4). -/
def acceptStep (s : State) : Result :=
  match s.presented with
  | some w => acceptWord w s.advance
  | none => .next s

/-- One step of the unit where no reset falls (R155, R220). -/
def unitStep (s : State) : Result :=
  match s.mode with
  | .idle => acceptStep s
  | .dumping => renderStep s

/-- One step: RESET when the host's reset request is due (R210, R221), else one step of the unit with the request one
step nearer (log 2). -/
def machineStep (s : State) : Result :=
  match s.resetIn with
  | 0 :: later => .next (s.resetUnit.setResetIn later)
  | (delay + 1) :: later => unitStep (s.setResetIn (delay :: later))
  | [] => unitStep s

/-- The command list with `w` as its entry `k`, padded with illegal all-zero words where it is shorter (log 9). -/
def placeCommand (program : List Word) (k : Nat) (w : Word) : List Word :=
  program.take k ++ List.replicate (k - program.length) 0 ++ w :: program.drop (k + 1)

end Sys2Proof.Machine
end

