-- ==== Sys2Proof/Machine/Step.lean ====
section
/-! DEFINITION. The step of the machine, and how a command word is placed where the step takes its next command. -/

namespace Sys2Proof.Machine

/-- One indivisible step (R47): a reset, a row or the completion of a grid, or one command. -/
def step (s : State) : Host.Outcome State Fault Refusal := machineStep s

/-- The host presents the word as its next command. So that the very next step accepts it, the unit is IDLE and no
reset is due at once; nothing else changes (log 9). -/
def State.withFetchWord (s : State) (nbits w : Nat) : State :=
  { s with
    program := placeCommand s.program s.pc (wordOfBits nbits w)
    mode := .idle
    resetIn := s.resetIn.dropWhile (· == 0) }

end Sys2Proof.Machine
end

