-- ==== Sys2Proof/Machine/Assembler.lean ====
section
/-! DEFINITION. The assembly notation of a command sequence (R67): one command per line, lower-case mnemonics, an operand
in decimal or as `0x` and hexadecimal digits in [0, 65535], `#` to the end of a line a comment, no pseudo-instructions
(R68). The notation is no part of the unit; it reads ASCII bytes. What R67 leaves open (runs of spaces, blank lines, the
case of hexadecimal digits, leading zeros) is log 6, DESIGN CHOICE. -/

namespace Sys2Proof.Machine

/-- The ASCII bytes of a text. -/
def ascii (t : String) : List Byte := t.toList.map fun c => BitVec.ofNat 8 c.toNat

/-- The pieces of a text between the occurrences of a separator. -/
def splitAtByte (sep : Byte) : List Byte → List (List Byte)
  | [] => [[]]
  | c :: cs =>
    if c = sep then [] :: splitAtByte sep cs
    else
      match splitAtByte sep cs with
      | [] => [[c]]
      | piece :: pieces => (c :: piece) :: pieces

/-- The value of a decimal digit. -/
def decimalValue? (c : Byte) : Option Nat :=
  if 0x30 ≤ c.toNat ∧ c.toNat ≤ 0x39 then some (c.toNat - 0x30) else none

/-- The value of a hexadecimal digit, in either case of letters. -/
def hexValue? (c : Byte) : Option Nat :=
  if 0x61 ≤ c.toNat ∧ c.toNat ≤ 0x66 then some (c.toNat - 0x61 + 10)
  else if 0x41 ≤ c.toNat ∧ c.toNat ≤ 0x46 then some (c.toNat - 0x41 + 10)
  else decimalValue? c

/-- The value of a digit string read onwards from `acc`. -/
def digitsValue? (base : Nat) (value? : Byte → Option Nat) (acc : Nat) : List Byte → Option Nat
  | [] => some acc
  | c :: cs =>
    match value? c with
    | some d => digitsValue? base value? (acc * base + d) cs
    | none => none

/-- A number as R67 writes it: decimal, or `0x` and at least one hexadecimal digit. -/
def numberValue? (t : List Byte) : Option Nat :=
  match t with
  | [] => none
  | c :: cs =>
    if c = digitByte 0 ∧ cs.head? = some 0x78#8 then
      match cs.drop 1 with
      | [] => none
      | h :: hs => digitsValue? 16 hexValue? 0 (h :: hs)
    else digitsValue? 10 decimalValue? 0 (c :: cs)

/-- An operand: a number in [0, 65535] (R67). -/
def operand? (t : List Byte) : Option Operand :=
  match numberValue? t with
  | some n => if n < 65536 then some (BitVec.ofNat 16 n) else none
  | none => none

/-- The command that the words of one line name. -/
def parseTokens : List (List Byte) → Option Instr
  | [m] =>
    if m = ascii "clear" then some .clear
    else if m = ascii "dump" then some .dump
    else none
  | [m, t] =>
    match operand? t with
    | none => none
    | some n =>
      if m = ascii "construct" then some (.construct n)
      else if m = ascii "get" then some (.get n)
      else if m = ascii "set" then some (.set n)
      else if m = ascii "swap" then some (.swap n)
      else none
  | _ => none

/-- The words of a line, its comment left out. -/
def lineTokens (l : List Byte) : List (List Byte) :=
  (splitAtByte spaceByte (l.takeWhile (· ≠ 0x23#8))).filter (· ≠ [])

/-- The commands of the lines, blank and comment-only lines giving none; `none` where a line is no command. -/
def parseLines : List (List Byte) → Option (List Instr)
  | [] => some []
  | l :: ls =>
    match lineTokens l, parseLines ls with
    | [], rest => rest
    | ts, some rest =>
      match parseTokens ts with
      | some i => some (i :: rest)
      | none => none
    | _, none => none

/-- The command words of an assembly text (R67). -/
def assemble (source : List Byte) : Option (List Word) :=
  (parseLines (splitAtByte lineFeed source)).map (·.map encode)

/-- The assembly line of a command, its operand in decimal (R67). -/
def disassemble : Instr → List Byte
  | .construct n => ascii "construct " ++ dec n.toNat
  | .get n => ascii "get " ++ dec n.toNat
  | .set n => ascii "set " ++ dec n.toNat
  | .swap n => ascii "swap " ++ dec n.toNat
  | .clear => ascii "clear"
  | .dump => ascii "dump"

end Sys2Proof.Machine
end

