-- ==== Sys2Proof/Safety.lean ====
section
/-! DEFINITION. The vocabulary of the claims: the legal register combinations of 10_state.md as an invariant, what a
response leaves, the grid a store has, which check fails first, and runs of several commands. -/

namespace Sys2Proof.Machine

/-- The legal sizes of an instance (R21). -/
def legalSizes : List Nat := [1, 2, 4, 8, 16, 32, 64, 128, 256]

/-- The values DUMP_I rests at while IDLE: 0, or where a completed grid leaves it (R28, R161). -/
def restingOffsets : List Nat := [0, 2, 4, 12, 16, 40, 72, 140, 256]

/-- The row width of a size: twice its base-2 logarithm (R150). -/
def State.slide (s : State) : Nat := 2 * Nat.log2 s.size.toNat

/-- The number of rows of a grid, `ceil(SIZE / slide)` (R157, R159). -/
def State.rows (s : State) : Nat := rowCount s.size.toNat s.slide

/-- The store invariant of R25, in its own words. -/
def StoreInv (s : State) : Prop :=
  (s.valid = true → ∀ p, s.size.toNat ≤ p → p < 256 → s.bitRead? p = some false) ∧
  (s.valid = false → ∀ k : Fin 8, s.words.get k = 0)

/-- The register combinations the spec calls legal (R20, R21, R25, R27, R28, R36), the statuses the unit produces (R180),
and a host position inside its command list (R34). -/
structure Inv (s : State) : Prop where
  /-- An instance has a legal size (R21). -/
  legalSize : s.valid = true → s.size.toNat ∈ legalSizes
  /-- Without an instance: SIZE is 0, every word is 0 and no grid is in progress (R21, R25, R154). -/
  noInstance : s.valid = false → s.size = 0 ∧ s.words = Vector.replicate 8 0 ∧ s.mode = .idle
  /-- Every position at or above SIZE holds 0 (R25). -/
  storeZero : ∀ p, s.size.toNat ≤ p → p < 256 → s.bitRead? p = some false
  /-- While IDLE, DUMP_I is 0 or where a completed grid left it (R28, R161). -/
  idleOffset : s.mode = .idle → s.dumpI.toNat ∈ restingOffsets
  /-- While DUMPING, DUMP_I is 0 or one row past a row offset below SIZE (R28, R151). -/
  gridOffset : s.mode = .dumping →
    s.dumpI = 0 ∨ ∃ r, r * s.slide < s.size.toNat ∧ s.dumpI.toNat = (r + 1) * s.slide
  /-- Codes 6 and 7 are never produced (R36, R180). -/
  statusProduced : s.rspStatus.toNat ≤ 5
  /-- Nor do they stand in the response log (R30, R180). -/
  logProduced : ∀ r ∈ s.rspLog, r.status.toNat ≤ 5
  /-- The host's position is inside its list or at its end (R34). -/
  position : s.pc ≤ s.program.length

/-- What a response leaves: the two response registers and one more pair in the log, all else as in `s` (R16, R29). -/
def State.answered (s : State) (status : BitVec 3) (data : Word) : State :=
  { s with rspStatus := status, rspData := data, rspLog := s.rspLog ++ [⟨status, data⟩] }

/-- No command can be accepted at `s`: while DUMPING, every step leaves the host where it was (R155, R220). -/
def HeldWhileDumping (s : State) : Prop :=
  s.mode = .dumping → ∀ t, step s = .next t → t.pc = s.pc ∧ t.program = s.program

/-- The row of the grid at an offset, read off the store (R151, R152). -/
def State.gridRow (s : State) (i : Nat) : Row where
  offset := i
  bits := (List.range s.slide).map fun j => s.bitRead? (i + j) = some true

/-- The text of the first `k` rows of the grid (R151, R153). -/
def State.gridText (s : State) (k : Nat) : List Byte :=
  (List.range k).flatMap fun r => (s.gridRow (r * s.slide)).line

/-- The first check that fails for a command word, with the datum it records, in the order of R189 and by the table of
R180; `none` when no check fails. -/
def firstFailure (w : Word) (s : State) : Option (BitVec 3 × Word) :=
  match decode w with
  | .illegal _ => some (5, w)
  | .legal (.construct size) =>
    if ¬ ∃ k ∈ List.range 16, size.toNat = 2 ^ k then some (1, size.setWidth 32)
    else if 256 < size.toNat then some (2, size.setWidth 32)
    else none
  | .legal (.get n) | .legal (.set n) | .legal (.swap n) =>
    if s.valid = false then some (4, n.setWidth 32)
    else if s.size.toNat ≤ n.toNat then some (3, n.setWidth 32)
    else none
  | .legal .clear | .legal .dump => if s.valid = false then some (4, 0) else none

/-- The effects of commands one after another (R48, R112), stopping at a stop. -/
def execAll : List Instr → State → Result
  | [], s => .next s
  | i :: is, s =>
    match exec i s with
    | .next t => execAll is t
    | .fault r => .fault r
    | .refused r => .refused r

/-- `k` steps of the machine, stopping at a stop (`Host.Core.run` of `core`, on this machine's own types). -/
def steps : Nat → State → Result
  | 0, s => .next s
  | k + 1, s =>
    match step s with
    | .next t => steps k t
    | .fault r => .fault r
    | .refused r => .refused r

/-- The ASCII byte of a hexadecimal digit, in upper or lower case. -/
def hexByte (upper : Bool) (d : Nat) : Byte :=
  if d < 10 then digitByte d else BitVec.ofNat 8 (d - 10 + if upper then 0x41 else 0x61)

/-- A numeral of the assembly notation for `n` (R67): its decimal spelling, or `0x` and hexadecimal digits whose value it
is, each digit in either case (log 6). -/
def IsNumeral (n : Nat) (t : List Byte) : Prop :=
  t = dec n ∨
    ∃ ds : List (Bool × Nat), ds ≠ [] ∧ (∀ d ∈ ds, d.2 < 16) ∧ ds.foldl (fun v d => v * 16 + d.2) 0 = n ∧
      t = ascii "0x" ++ ds.map fun d => hexByte d.1 d.2

/-- The mnemonic of a command (R67). -/
def mnemonic : Instr → List Byte
  | .construct _ => ascii "construct"
  | .get _ => ascii "get"
  | .set _ => ascii "set"
  | .swap _ => ascii "swap"
  | .clear => ascii "clear"
  | .dump => ascii "dump"

/-- A text of a command (R67): the mnemonic, and for a command with an operand one space and a numeral of it. -/
def IsCommandText (i : Instr) (t : List Byte) : Prop :=
  match i with
  | .construct n | .get n | .set n | .swap n =>
    ∃ m, IsNumeral n.toNat m ∧ t = mnemonic i ++ spaceByte :: m
  | .clear | .dump => t = mnemonic i

/-- What may follow a command's text on its line, and may stand alone on a line of no command (log 6): spaces, and a
comment from `#` to the end of the line (R67). -/
def IsTrailer (t : List Byte) : Prop :=
  ∃ k, t = List.replicate k spaceByte ∨ ∃ c, lineFeed ∉ c ∧ t = List.replicate k spaceByte ++ 0x23#8 :: c

/-- A line of an assembly text: of a command, or of none. -/
def IsLine (i : Option Instr) (l : List Byte) : Prop :=
  match i with
  | some i => ∃ t u, IsCommandText i t ∧ IsTrailer u ∧ l = t ++ u
  | none => IsTrailer l

/-- A run on a finite command list is over (R224). -/
def State.finished (s : State) : Prop := s.program.length ≤ s.pc ∧ s.mode = .idle

/-- The host's reset requests after a step in which none was due (log 2). -/
def nearer : List Nat → List Nat
  | (delay + 1) :: later => delay :: later
  | requests => requests

/-- The state an outcome goes on from, if it goes on. -/
def nextState? : Result → Option State
  | .next t => some t
  | .fault _ => none
  | .refused _ => none

end Sys2Proof.Machine
end

