-- ==== Sys2Proof/Certificates/Slice0/Obligations.lean ====
section
/-! DEFINITION. The statements for the provers, each a rule of spec/ or derived from its rules. A hypothesis
`s.size.toNat ∈ legalSizes` or `Inv s` rules out register combinations the spec says never occur (R21, R36); that every
step keeps `Inv` is a statement of its own. -/

open Sys2Proof Sys2Proof.Machine

/-! ### Encoding -/

/-- The examples of R69: each assembly line gives its word and each word its command; the last three are illegal. -/
def Obligations.EncodingExamplesDecode : Prop :=
  (assemble (ascii "construct 8") = some [0x10000008#32] ∧ decode 0x10000008#32 = .legal (.construct 8)) ∧
  (assemble (ascii "construct 256") = some [0x10000100#32] ∧ decode 0x10000100#32 = .legal (.construct 256)) ∧
  (assemble (ascii "construct 512") = some [0x10000200#32] ∧ decode 0x10000200#32 = .legal (.construct 512)) ∧
  (assemble (ascii "get 4") = some [0x20000004#32] ∧ decode 0x20000004#32 = .legal (.get 4)) ∧
  (assemble (ascii "set 0") = some [0x30000000#32] ∧ decode 0x30000000#32 = .legal (.set 0)) ∧
  (assemble (ascii "set 255") = some [0x300000FF#32] ∧ decode 0x300000FF#32 = .legal (.set 255)) ∧
  (assemble (ascii "swap 4") = some [0x40000004#32] ∧ decode 0x40000004#32 = .legal (.swap 4)) ∧
  (assemble (ascii "clear") = some [0x50000000#32] ∧ decode 0x50000000#32 = .legal .clear) ∧
  (assemble (ascii "dump") = some [0x60000000#32] ∧ decode 0x60000000#32 = .legal .dump) ∧
  (∃ why, decode 0x00000000#32 = .illegal why) ∧
  (∃ why, decode 0x20010004#32 = .illegal why) ∧
  (∃ why, decode 0x50000001#32 = .illegal why)

/-- Decoding the encoding of a command gives it back, with every operand (R61, R65, R67). -/
def Obligations.DecodeOfEncodeIsTheCommand : Prop := ∀ i : Instr, decode (encode i) = .legal i

/-- A word that decodes to a command is that command's one encoding (R60, R61, R65): no bit of it is ignored. -/
def Obligations.EncodeOfDecodeIsTheWord : Prop := ∀ (w : Word) (i : Instr), decode w = .legal i → encode i = w

/-- R65: the decoder reads the fields as its pseudocode says; a word is legal exactly when a row of the opcode table
matches it, and no two rows match one word. -/
def Obligations.DecodeReadsFieldsAndTable : Prop :=
  ∀ w : Word,
    let opc := w.toNat / 2 ^ 28
    let rsv := w.toNat / 2 ^ 16 % 2 ^ 12
    let opnd : Operand := BitVec.ofNat 16 (w.toNat % 2 ^ 16)
    let rows : List (Word × Word) :=
      [(0xFFFF0000#32, 0x10000000#32), (0xFFFF0000#32, 0x20000000#32), (0xFFFF0000#32, 0x30000000#32),
       (0xFFFF0000#32, 0x40000000#32), (0xFFFFFFFF#32, 0x50000000#32), (0xFFFFFFFF#32, 0x60000000#32)]
    (rsv ≠ 0 → ∃ why, decode w = .illegal why) ∧
    (rsv = 0 → opc = 1 → decode w = .legal (.construct opnd)) ∧
    (rsv = 0 → opc = 2 → decode w = .legal (.get opnd)) ∧
    (rsv = 0 → opc = 3 → decode w = .legal (.set opnd)) ∧
    (rsv = 0 → opc = 4 → decode w = .legal (.swap opnd)) ∧
    (rsv = 0 → opc = 5 → if opnd = 0 then decode w = .legal .clear else ∃ why, decode w = .illegal why) ∧
    (rsv = 0 → opc = 6 → if opnd = 0 then decode w = .legal .dump else ∃ why, decode w = .illegal why) ∧
    (rsv = 0 → (opc = 0 ∨ 7 ≤ opc) → ∃ why, decode w = .illegal why) ∧
    ((∃ i, decode w = .legal i) ↔ ∃ r ∈ rows, w &&& r.1 = r.2) ∧
    (rows.filter fun r => w &&& r.1 == r.2).length ≤ 1

/-- R64, R185: which words are illegal, and that accepting one is the response ILLEGAL_COMMAND with the word and nothing
else, in every state. -/
def Obligations.IllegalWordIsRefused : Prop :=
  ∀ w : Word,
    ((∃ why, decode w = .illegal why) ↔
      (w.toNat / 2 ^ 28 = 0 ∨ 7 ≤ w.toNat / 2 ^ 28) ∨ w.toNat / 2 ^ 16 % 2 ^ 12 ≠ 0 ∨
      ((w.toNat / 2 ^ 28 = 5 ∨ w.toNat / 2 ^ 28 = 6) ∧ w.toNat % 2 ^ 16 ≠ 0)) ∧
    ((∃ why, decode w = .illegal why) → ∀ s, acceptWord w s = .next (s.answered 5 w))

/-- R67: the assembler reads every command's line with a decimal or `0x` operand; of a text of such lines, with comments
after them or alone, it gives the words of the commands in the order of the lines; and it refuses an operand above 65535.
That spaces may end a line, that a line may hold no command, and the case of hexadecimal digits are the model's choice
(log 6). -/
def Obligations.AssemblerReadsEveryCommand : Prop :=
  (∀ i : Instr, assemble (disassemble i) = some [encode i]) ∧
  (∀ lines : List (Option Instr × List Byte), (∀ p ∈ lines, IsLine p.1 p.2) →
    assemble (List.intercalate [lineFeed] (lines.map (·.2))) = some ((lines.filterMap (·.1)).map encode)) ∧
  (∀ (n : Nat) (m : List Byte), 65535 < n → IsNumeral n m → ∀ c ∈ ["construct", "get", "set", "swap"],
    assemble (ascii c ++ spaceByte :: m) = none)

/-! ### Index datapath and sizes -/

/-- R100, R101, R102: word index and bit offset are the operand's bits 15:5 and 4:0, the word index of an accepted index
names one of the eight words, and the mask has exactly the addressed bit set. -/
def Obligations.IndexDatapathSelectsOneBit : Prop :=
  ∀ n : Operand,
    wordIndex n.toNat = n.toNat / 32 ∧ wordIndex n.toNat = (n.extractLsb' 5 11).toNat ∧
    (n.toNat < 256 → wordIndex n.toNat < 8) ∧
    bitOffset n.toNat = n.toNat % 32 ∧ bitOffset n.toNat = (n.extractLsb' 0 5).toNat ∧
    mask n.toNat = 1#32 <<< (n.toNat % 32) ∧
    (∀ b, b < 32 → (mask n.toNat).getLsbD b = decide (b = n.toNat % 32)) ∧
    (n.toNat % 32 = 31 → mask n.toNat = 0x80000000#32)

/-- R14: the power-of-two test and its logarithm, on every natural. -/
def Obligations.PowerOfTwoTestAndLogarithm : Prop :=
  ∀ n : Nat, (isPow2 n = true ↔ ∃ k, n = 2 ^ k) ∧ isPow2 0 = false ∧ ∀ k, log2? n = some k ↔ n = 2 ^ k

/-- R41, R42, R44: bit position `32 * k + b` is bit `b` of word `k`, for each of the 256 positions. -/
def Obligations.BitPositionIsWordAndOffset : Prop :=
  ∀ (s : State) (k : Fin 8) (b : Fin 32),
    s.bitRead? (32 * k.val + b.val) = some ((s.words.get k).getLsbD b.val)

/-! ### CONSTRUCT -/

/-- R80, R81, R82, R84. -/
def Obligations.ConstructFollowsItsRule : Prop :=
  ∀ (S : Operand) (s : State),
    encode (.construct S) = 0x10000000#32 ||| BitVec.ofNat 32 S.toNat ∧
    HeldWhileDumping s ∧
    (s.mode = .idle → (¬ ∃ k, S.toNat = 2 ^ k) →
      exec (.construct S) s = .next (s.answered 1 (BitVec.ofNat 32 S.toNat))) ∧
    (s.mode = .idle → (∃ k, S.toNat = 2 ^ k) → 256 < S.toNat →
      exec (.construct S) s = .next (s.answered 2 (BitVec.ofNat 32 S.toNat))) ∧
    (s.mode = .idle → (∃ k, S.toNat = 2 ^ k) → S.toNat ≤ 256 →
      exec (.construct S) s = .next (({ s with
        valid := true, size := BitVec.ofNat 9 S.toNat, words := Vector.replicate 8 0 } : State).answered 0 0))

/-- R87: which of the 65536 sizes construct, and the code each other one reports. -/
def Obligations.ConstructSucceedsExactlyOnLegalSizes : Prop :=
  ∀ (S : Operand) (s : State), s.mode = .idle →
    ∃ t, exec (.construct S) s = .next t ∧
      (t.rspStatus = 0 ↔ S.toNat ∈ [1, 2, 4, 8, 16, 32, 64, 128, 256]) ∧
      (t.rspStatus = 2 ↔ S.toNat ∈ [512, 1024, 2048, 4096, 8192, 16384, 32768]) ∧
      (t.rspStatus = 1 ↔ ¬ ∃ k, S.toNat = 2 ^ k) ∧
      (t.rspStatus = 0 → t.valid = true ∧ t.size.toNat = S.toNat) ∧
      (t.rspStatus ≠ 0 → t.valid = s.valid ∧ t.size = s.size ∧ t.words = s.words)

/-- R85: a successful CONSTRUCT over an instance leaves VALID, SIZE, the store and the response as resetting and then
constructing would, whatever the previous size and bits were. -/
def Obligations.ReconstructionEqualsResetThenConstruct : Prop :=
  ∀ (S : Operand) (s : State), s.mode = .idle → s.valid = true → S.toNat ∈ legalSizes →
    ∃ t u, exec (.construct S) s = .next t ∧ exec (.construct S) s.resetUnit = .next u ∧
      t.valid = u.valid ∧ t.size = u.size ∧ t.words = u.words ∧ t.mode = u.mode ∧
      t.rspStatus = u.rspStatus ∧ t.rspData = u.rspData ∧ t.rspLog = u.rspLog ∧ t.textLog = u.textLog ∧
      t.size.toNat = S.toNat ∧ (∀ p, p < 256 → t.bitRead? p = some false)

/-! ### GET, SET, SWAP -/

/-- R104 (with the operand check of R103). -/
def Obligations.GetFollowsItsRule : Prop :=
  ∀ (N : Operand) (s : State),
    encode (.get N) = 0x20000000#32 ||| BitVec.ofNat 32 N.toNat ∧
    HeldWhileDumping s ∧
    (s.mode = .idle → s.valid = false → exec (.get N) s = .next (s.answered 4 (BitVec.ofNat 32 N.toNat))) ∧
    (s.mode = .idle → s.valid = true → s.size.toNat ≤ N.toNat →
      exec (.get N) s = .next (s.answered 3 (BitVec.ofNat 32 N.toNat))) ∧
    (s.mode = .idle → s.valid = true → N.toNat < s.size.toNat → s.size.toNat ∈ legalSizes →
      ∃ k : Fin 8, k.val = N.toNat / 32 ∧
        exec (.get N) s = .next (s.answered 0 (s.words.get k &&& 1#32 <<< (N.toNat % 32))))

/-- R104, R105, R33: an accepted GET answers the mask when bit `N` is 1 and 0 when it is 0, so the host reads the bit as
the truth of the datum. -/
def Obligations.GetAnswersTheMaskedBit : Prop :=
  ∀ (N : Operand) (s : State), s.mode = .idle → s.valid = true → N.toNat < s.size.toNat →
    s.size.toNat ∈ legalSizes →
    ∃ t b, exec (.get N) s = .next t ∧ s.bitRead? N.toNat = some b ∧
      t.rspData = (if b then 1#32 <<< (N.toNat % 32) else 0) ∧ t.truthy = b

/-- R106: every GET leaves all but the response as it was, and a second GET answers the same. -/
def Obligations.GetIsAPureRead : Prop :=
  ∀ (N : Operand) (s : State), s.mode = .idle → (s.valid = true → s.size.toNat ∈ legalSizes) →
    ∃ t u, exec (.get N) s = .next t ∧ exec (.get N) t = .next u ∧
      t = { s with rspStatus := t.rspStatus, rspData := t.rspData, rspLog := t.rspLog } ∧
      u.rspStatus = t.rspStatus ∧ u.rspData = t.rspData

/-- R46, R104: a GET's answer depends on VALID, SIZE and the one addressed bit, and on no other bit of the store. -/
def Obligations.GetSeesOnlyTheAddressedBit : Prop :=
  ∀ (N : Operand) (s₁ s₂ t₁ t₂ : State), s₁.mode = .idle → s₂.mode = .idle →
    s₁.valid = s₂.valid → s₁.size = s₂.size → s₁.bitRead? N.toNat = s₂.bitRead? N.toNat →
    exec (.get N) s₁ = .next t₁ → exec (.get N) s₂ = .next t₂ →
    t₁.rspStatus = t₂.rspStatus ∧ t₁.rspData = t₂.rspData

/-- R110 (with the operand check of R103). -/
def Obligations.SetFollowsItsRule : Prop :=
  ∀ (N : Operand) (s : State),
    encode (.set N) = 0x30000000#32 ||| BitVec.ofNat 32 N.toNat ∧
    HeldWhileDumping s ∧
    (s.mode = .idle → s.valid = false → exec (.set N) s = .next (s.answered 4 (BitVec.ofNat 32 N.toNat))) ∧
    (s.mode = .idle → s.valid = true → s.size.toNat ≤ N.toNat →
      exec (.set N) s = .next (s.answered 3 (BitVec.ofNat 32 N.toNat))) ∧
    (s.mode = .idle → s.valid = true → N.toNat < s.size.toNat → s.size.toNat ∈ legalSizes →
      ∃ k : Fin 8, k.val = N.toNat / 32 ∧
        exec (.set N) s = .next (({ s with
          words := s.words.set k.val (s.words.get k ||| 1#32 <<< (N.toNat % 32)) k.isLt } : State).answered 0 0))

/-- R110: an accepted SET makes bit `N` 1 and leaves every other bit of the store as it was. -/
def Obligations.SetWritesOneBit : Prop :=
  ∀ (N : Operand) (s : State), s.mode = .idle → s.valid = true → N.toNat < s.size.toNat →
    s.size.toNat ∈ legalSizes →
    ∃ t, exec (.set N) s = .next t ∧ t.bitRead? N.toNat = some true ∧
      ∀ p, p ≠ N.toNat → t.bitRead? p = s.bitRead? p

/-- R111: a second SET of one index leaves the store as the first left it and answers (OK, 0) again. -/
def Obligations.SetIsIdempotent : Prop :=
  ∀ (N : Operand) (s : State), s.mode = .idle → s.valid = true → N.toNat < s.size.toNat →
    s.size.toNat ∈ legalSizes →
    ∃ t, exec (.set N) s = .next t ∧ t.rspStatus = 0 ∧ t.rspData = 0 ∧
      exec (.set N) t = .next (t.answered 0 0)

/-- R120 (with the operand check of R103). -/
def Obligations.SwapFollowsItsRule : Prop :=
  ∀ (N : Operand) (s : State),
    encode (.swap N) = 0x40000000#32 ||| BitVec.ofNat 32 N.toNat ∧
    HeldWhileDumping s ∧
    (s.mode = .idle → s.valid = false → exec (.swap N) s = .next (s.answered 4 (BitVec.ofNat 32 N.toNat))) ∧
    (s.mode = .idle → s.valid = true → s.size.toNat ≤ N.toNat →
      exec (.swap N) s = .next (s.answered 3 (BitVec.ofNat 32 N.toNat))) ∧
    (s.mode = .idle → s.valid = true → N.toNat < s.size.toNat → s.size.toNat ∈ legalSizes →
      ∃ k : Fin 8, k.val = N.toNat / 32 ∧
        exec (.swap N) s = .next (({ s with
          words := s.words.set k.val (s.words.get k ^^^ 1#32 <<< (N.toNat % 32)) k.isLt } : State).answered 0 0))

/-- R120: an accepted SWAP inverts bit `N` and leaves every other bit of the store as it was. -/
def Obligations.SwapInvertsOneBit : Prop :=
  ∀ (N : Operand) (s : State), s.mode = .idle → s.valid = true → N.toNat < s.size.toNat →
    s.size.toNat ∈ legalSizes →
    ∃ t b, exec (.swap N) s = .next t ∧ s.bitRead? N.toNat = some b ∧ t.bitRead? N.toNat = some (!b) ∧
      ∀ p, p ≠ N.toNat → t.bitRead? p = s.bitRead? p

/-- R121: two SWAPs of one index restore the store, and so the answer of GET; an index at or above SIZE leaves the store
as it was too. -/
def Obligations.SwapTwiceRestoresTheStore : Prop :=
  ∀ (N : Operand) (s : State), s.mode = .idle → s.valid = true → s.size.toNat ∈ legalSizes →
    ∃ t u g h, exec (.swap N) s = .next t ∧ exec (.swap N) t = .next u ∧ u.words = s.words ∧
      exec (.get N) s = .next g ∧ exec (.get N) u = .next h ∧
      h.rspStatus = g.rspStatus ∧ h.rspData = g.rspData ∧
      (s.size.toNat ≤ N.toNat → t.rspStatus = 3 ∧ u.rspStatus = 3 ∧ t.words = s.words)

/-- R122: SWAP after SET makes the bit 0, SET after SWAP makes it 1, and no GET, SET or SWAP of one index changes the bit
of another. -/
def Obligations.SetAndSwapMeetOnlyInTheirBit : Prop :=
  ∀ (N : Operand) (s : State), s.mode = .idle → s.valid = true → s.size.toNat ∈ legalSizes →
    N.toNat < s.size.toNat →
    (∃ t, execAll [.set N, .swap N] s = .next t ∧ t.bitRead? N.toNat = some false) ∧
    (∃ t, execAll [.swap N, .set N] s = .next t ∧ t.bitRead? N.toNat = some true) ∧
    (∀ M : Operand, M.toNat < s.size.toNat → N ≠ M → ∀ i, i = .get N ∨ i = .set N ∨ i = .swap N →
      ∃ t, exec i s = .next t ∧ t.bitRead? M.toNat = s.bitRead? M.toNat)

/-- R113, the source's set/get round trip: after a successful CONSTRUCT or CLEAR and any GETs, SETs and SWAPs of which no
SET or SWAP names `M`, SET `N` makes GET `N` answer the mask of `N`, which is not 0, and GET `M` answers 0. -/
def Obligations.RoundTripAfterConstructOrClear : Prop :=
  ∀ (first : Instr) (cmds : List Instr) (N M : Operand) (s t u : State),
    s.mode = .idle → (s.valid = true → s.size.toNat ∈ legalSizes) →
    (first = .clear ∨ ∃ S, first = .construct S) → exec first s = .next t → t.rspStatus = 0 →
    (∀ c ∈ cmds, (∃ x, c = .get x) ∨ ∃ x, (c = .set x ∨ c = .swap x) ∧ x ≠ M) →
    execAll cmds t = .next u → N.toNat < u.size.toNat → M.toNat < u.size.toNat → N ≠ M →
    ∃ v g h, exec (.set N) u = .next v ∧ exec (.get N) v = .next g ∧ exec (.get M) v = .next h ∧
      g.rspStatus = 0 ∧ g.rspData = 1#32 <<< (N.toNat % 32) ∧ g.rspData ≠ 0 ∧
      h.rspStatus = 0 ∧ h.rspData = 0

/-! ### CLEAR -/

/-- R140. -/
def Obligations.ClearFollowsItsRule : Prop :=
  encode .clear = 0x50000000#32 ∧
  (∀ w : Word, w.toNat / 2 ^ 28 = 5 → w.toNat % 2 ^ 16 ≠ 0 → ∀ s, acceptWord w s = .next (s.answered 5 w)) ∧
  ∀ s : State,
    HeldWhileDumping s ∧
    (s.mode = .idle → s.valid = false → exec .clear s = .next (s.answered 4 0)) ∧
    (s.mode = .idle → s.valid = true →
      exec .clear s = .next (({ s with words := Vector.replicate 8 0 } : State).answered 0 0))

/-- R142: after CLEAR every index below SIZE reads (OK, 0); and a DUMP then accepted, with no reset request, emits in its
first `k` steps the lines of `k` rows whose every bit is 0, for every `k` up to the number of rows, at SIZE = 1 for every
`k`. -/
def Obligations.ClearMakesEveryBitZero : Prop :=
  ∀ s : State, s.mode = .idle → s.valid = true → s.size.toNat ∈ legalSizes →
    ∃ t, exec .clear s = .next t ∧ t.size = s.size ∧
      (∀ n : Operand, n.toNat < s.size.toNat → exec (.get n) t = .next (t.answered 0 0)) ∧
      ∃ d, exec .dump t = .next d ∧
        ∀ k, (s.size.toNat = 1 ∨ k ≤ s.rows) → s.resetIn = [] →
          ∃ u, steps k d = .next u ∧
            u.textLog = s.textLog ++
              (List.range k).flatMap fun r => (Row.mk (r * s.slide) (List.replicate s.slide false)).line

/-- R143: on an instance, CLEAR leaves the very state that CONSTRUCT of the same size leaves. -/
def Obligations.ClearEqualsConstructOfTheSameSize : Prop :=
  ∀ s : State, s.mode = .idle → s.valid = true → s.size.toNat ∈ legalSizes →
    ∃ t, exec .clear s = .next t ∧ exec (.construct (BitVec.ofNat 16 s.size.toNat)) s = .next t

/-! ### DUMP and the renderer -/

/-- R154: DUMP's acceptance. The rows and the response are the renderer's steps. -/
def Obligations.DumpFollowsItsRule : Prop :=
  encode .dump = 0x60000000#32 ∧
  (∀ w : Word, w.toNat / 2 ^ 28 = 6 → w.toNat % 2 ^ 16 ≠ 0 → ∀ s, acceptWord w s = .next (s.answered 5 w)) ∧
  ∀ s : State,
    HeldWhileDumping s ∧
    (s.mode = .idle → s.valid = false → exec .dump s = .next (s.answered 4 0)) ∧
    (s.mode = .idle → s.valid = true → exec .dump s = .next { s with mode := .dumping, dumpI := 0 }) ∧
    (s.mode = .dumping → ∀ t, unitStep s = .next t → t.rspStatus = s.rspStatus ∨ t.rspStatus = 0)

/-- R153: the bytes of a line, for every offset of three digits and every row of bits. -/
def Obligations.LineHasTheByteFormat : Prop :=
  ∀ (i : Nat) (bits : List Bool), i < 1000 →
    (Row.mk i bits).line =
      (if i < 10 then [0x20#8, 0x20#8, BitVec.ofNat 8 (0x30 + i)]
        else if i < 100 then [0x20#8, BitVec.ofNat 8 (0x30 + i / 10), BitVec.ofNat 8 (0x30 + i % 10)]
        else [BitVec.ofNat 8 (0x30 + i / 100), BitVec.ofNat 8 (0x30 + i / 10 % 10), BitVec.ofNat 8 (0x30 + i % 10)]) ++
      (bits.map fun b => [0x20#8, if b then 0x31#8 else 0x30#8]).flatten ++ [0x0A#8] ∧
    (Row.mk i bits).line.length = 3 + 2 * bits.length + 1

/-- R156 (with R150, R151, R152): the row step. `Inv s` rules out a DUMP_I that is no row offset, from which a row could
run past position 255 (R28, R159). -/
def Obligations.RendererEmitsOneRow : Prop :=
  ∀ s : State, Inv s → s.mode = .dumping → s.dumpI.toNat < s.size.toNat →
    ∃ bits : List Bool,
      bits.length = 2 * Nat.log2 s.size.toNat ∧
      (∀ j, j < 2 * Nat.log2 s.size.toNat → bits[j]? = s.bitRead? (s.dumpI.toNat + j)) ∧
      unitStep s = .next { s with
        textLog := s.textLog ++ (Row.mk s.dumpI.toNat bits).line
        dumpI := BitVec.ofNat 9 (s.dumpI.toNat + 2 * Nat.log2 s.size.toNat) }

/-- R157: the completion step. -/
def Obligations.RendererCompletesAndAnswers : Prop :=
  ∀ s : State, s.mode = .dumping → s.size.toNat ∈ legalSizes → 2 ≤ s.size.toNat → s.size.toNat ≤ s.dumpI.toNat →
    let slide := 2 * Nat.log2 s.size.toNat
    unitStep s = .next (({ s with mode := .idle } : State).answered 0
      (BitVec.ofNat 32 ((s.size.toNat + slide - 1) / slide)))

/-- R158: in a row that runs to or past SIZE, the column at or above SIZE is a position that exists and reads 0, and the
row the unit's step emits has a 0 bit there. -/
def Obligations.RendererReadsZeroPastSize : Prop :=
  ∀ (s : State) (j : Nat), Inv s → s.mode = .dumping → s.dumpI.toNat < s.size.toNat → j < s.slide →
    s.size.toNat ≤ s.dumpI.toNat + j →
    s.dumpI.toNat + j ≤ 255 ∧ s.bitRead? (s.dumpI.toNat + j) = some false ∧
    ∃ bits : List Bool, bits.length = s.slide ∧ bits[j]? = some false ∧
      unitStep s = .next { s with
        textLog := s.textLog ++ (Row.mk s.dumpI.toNat bits).line
        dumpI := BitVec.ofNat 9 (s.dumpI.toNat + s.slide) }

/-- R159: base, slide, rows, last row offset, last position read, bytes per line and in all, of each legal size above 1;
and base and slide of size 1. -/
def Obligations.GeometryOfEverySize : Prop :=
  (∀ g ∈ [(2, 1, 2, 1, 0, 1, 8, 8), (4, 2, 4, 1, 0, 3, 12, 12), (8, 3, 6, 2, 6, 11, 16, 32),
          (16, 4, 8, 2, 8, 15, 20, 40), (32, 5, 10, 4, 30, 39, 24, 96), (64, 6, 12, 6, 60, 71, 28, 168),
          (128, 7, 14, 10, 126, 139, 32, 320), (256, 8, 16, 16, 240, 255, 36, 576)],
    let (size, base, slide, rows, lastRow, lastRead, perLine, inAll) := g
    log2? size = some base ∧ slideOf base = slide ∧ rowCount size slide = rows ∧ (rows - 1) * slide = lastRow ∧
    lastRow < size ∧ size ≤ rows * slide ∧ lastRow + slide - 1 = lastRead ∧
    (Row.mk lastRow (List.replicate slide true)).line.length = perLine ∧ rows * perLine = inAll) ∧
  log2? 1 = some 0 ∧ slideOf 0 = 0

/-- R161 (with R151, R155, R157, R226): a DUMP of an instance of size 2 or more, with no reset request, has after
`ceil(SIZE / slide)` row steps and one completion step emitted the whole grid of the store it was accepted with and
answered (OK, rows); nothing else has changed, and no command was accepted meanwhile. -/
def Obligations.DumpRendersTheWholeGrid : Prop :=
  ∀ s : State, s.mode = .idle → s.valid = true → s.size.toNat ∈ legalSizes → 2 ≤ s.size.toNat → s.resetIn = [] →
    ∃ t, exec .dump s = .next t ∧
      steps (s.rows + 1) t = .next (({ s with
        dumpI := BitVec.ofNat 9 (s.rows * s.slide)
        textLog := s.textLog ++ s.gridText s.rows } : State).answered 0 (BitVec.ofNat 32 s.rows)) ∧
      (s.rows - 1) * s.slide < s.size.toNat ∧ s.size.toNat ≤ s.rows * s.slide ∧ s.rows * s.slide ≤ 256

/-- R160: at SIZE = 1 the renderer emits "  0" and a line feed at every step, for ever: whatever the number of steps, the
unit still renders, has answered nothing and accepted nothing; a reset makes it IDLE. -/
def Obligations.DumpAtSizeOneNeverEnds : Prop :=
  ∀ (s : State) (k : Nat), s.mode = .idle → s.valid = true → s.size.toNat = 1 → s.resetIn = [] →
    ∃ t, exec .dump s = .next t ∧
      steps k t = .next { t with
        textLog := s.textLog ++ (List.replicate k [0x20#8, 0x20#8, 0x30#8, 0x0A#8]).flatten } ∧
      t.mode = .dumping ∧ t.dumpI = 0 ∧ t.rspLog = s.rspLog ∧ t.pc = s.pc ∧ t.resetUnit.mode = .idle

/-- R155: while DUMPING, a step of the unit accepts no command and leaves the store and the instance as they were. -/
def Obligations.DumpingHoldsCommandsAndStore : Prop :=
  ∀ s t : State, s.mode = .dumping → unitStep s = .next t →
    t.program = s.program ∧ t.pc = s.pc ∧ t.words = s.words ∧ t.size = s.size ∧ t.valid = s.valid ∧
    s.textLog <+: t.textLog

/-! ### Errors -/

/-- R189 (with the data of R180): the first check that fails is the one status reported, and a failing check is all that
happens; when none fails, the response, if any, is OK. -/
def Obligations.FirstFailingCheckIsReported : Prop :=
  ∀ (w : Word) (s : State), s.mode = .idle →
    (∀ e d, firstFailure w s = some (e, d) → acceptWord w s = .next (s.answered e d)) ∧
    (firstFailure w s = none → ∀ t, acceptWord w s = .next t →
      t.rspLog = s.rspLog ∨ ∃ d, t.rspLog = s.rspLog ++ [⟨0, d⟩])

/-- R183: in any step of the unit, a response whose status is an error is the only effect beside the acceptance of the
command; no text is emitted and no other register written. -/
def Obligations.ErrorsChangeOnlyTheResponse : Prop :=
  ∀ (s t : State) (r : Response), unitStep s = .next t → t.rspLog = s.rspLog ++ [r] → r.status ≠ 0 →
    t = ({ s with pc := s.pc + 1 } : State).answered r.status r.data

/-- R184: after an error of any word the unit is IDLE, and the next command, whichever it is, completes if it would have
without the failed one, with the same registers, the same pairs added to the response log and, where it answers, the same
response registers. -/
def Obligations.ErrorsAreNotSticky : Prop :=
  ∀ (w : Word) (i : Instr) (s t : State) (r : Response), s.mode = .idle → acceptWord w s = .next t →
    t.rspLog = s.rspLog ++ [r] → r.status ≠ 0 →
    t.mode = .idle ∧
    ∀ v, exec i s = .next v →
      ∃ u rs, exec i t = .next u ∧ v.rspLog = s.rspLog ++ rs ∧ u.rspLog = t.rspLog ++ rs ∧
        (rs ≠ [] → u.rspStatus = v.rspStatus ∧ u.rspData = v.rspData) ∧
        u.valid = v.valid ∧ u.size = v.size ∧ u.words = v.words ∧ u.mode = v.mode ∧ u.dumpI = v.dumpI ∧
        u.textLog = v.textLog

/-- R182: the statuses each command can answer. -/
def Obligations.StatusesOfEachCommand : Prop :=
  (∀ (i : Instr) (s t : State), s.mode = .idle → exec i s = .next t →
    match i with
    | .construct _ => t.rspStatus = 0 ∨ t.rspStatus = 1 ∨ t.rspStatus = 2
    | .get _ | .set _ | .swap _ => t.rspStatus = 0 ∨ t.rspStatus = 4 ∨ t.rspStatus = 3
    | .clear => t.rspStatus = 0 ∨ t.rspStatus = 4
    | .dump => t.rspLog = s.rspLog ∨ t.rspStatus = 4) ∧
  (∀ s t : State, s.mode = .dumping → unitStep s = .next t →
    t.rspLog = s.rspLog ∨ (s.size.toNat ≠ 1 ∧ t.rspStatus = 0)) ∧
  (∀ (w : Word) (s : State), (∃ why, decode w = .illegal why) → ∃ t, acceptWord w s = .next t ∧ t.rspStatus = 5)

/-! ### Acceptance, host position, logs -/

/-- A step runs the presented word (R34, R64, R65, R220): with the unit IDLE and no reset request due, the word at the
host's position is accepted and the position is one further; a word that decodes to a command has `exec`'s effect, an
illegal word answers ILLEGAL_COMMAND with itself and nothing more. That reset requests are a list of delays, each step one
nearer, is the model's choice (log 2). -/
def Obligations.StepRunsThePresentedCommand : Prop :=
  ∀ (s : State) (w : Word), s.mode = .idle → s.resetIn.head? ≠ some 0 → s.program[s.pc]? = some w →
    (∀ i, decode w = .legal i → step s = exec i { s with pc := s.pc + 1, resetIn := nearer s.resetIn }) ∧
    ((∃ why, decode w = .illegal why) →
      step s = .next (({ s with pc := s.pc + 1, resetIn := nearer s.resetIn } : State).answered 5 w))

/-- R220: the unit accepts a command exactly while IDLE and with one presented, in the host's order, and every command
but DUMP is completed in that one step with one response. -/
def Obligations.AcceptanceIsOneStepInOrder : Prop :=
  ∀ s t : State, unitStep s = .next t →
    t.program = s.program ∧
    (t.pc = s.pc + 1 ↔ s.mode = .idle ∧ s.pc < s.program.length) ∧
    (t.pc = s.pc ↔ s.mode = .dumping ∨ s.program.length ≤ s.pc) ∧
    (s.mode = .idle → s.pc < s.program.length → t.mode = .idle →
      ∃ r, t.rspLog = s.rspLog ++ [r] ∧ r.status = t.rspStatus ∧ r.data = t.rspData) ∧
    (s.mode = .idle → t.mode = .dumping → s.program[s.pc]? = some 0x60000000#32)

/-- While DUMPING, `exec` of a command, which no step asks for, changes nothing: the command waits (R155, R220; the
model's reading, log 8). -/
def Obligations.ExecWaitsWhileDumping : Prop :=
  ∀ (i : Instr) (s : State), s.mode = .dumping → exec i s = .next s

/-- With the host's list exhausted, the unit IDLE and no reset request, a step leaves the state as it is (R224; that a
waiting unit's step is the unchanged state is the model's choice, log 4). -/
def Obligations.FinishedRunStays : Prop := ∀ s : State, s.finished → s.resetIn = [] → step s = .next s

/-- R30, R31: a step never takes anything from either log; it adds at most one response, text only while DUMPING. -/
def Obligations.LogsOnlyGrow : Prop :=
  ∀ s t : State, step s = .next t →
    (t.rspLog = s.rspLog ∨ ∃ r, t.rspLog = s.rspLog ++ [r]) ∧ s.textLog <+: t.textLog ∧
    (s.mode = .idle → t.textLog = s.textLog)

/-! ### Who writes what -/

/-- R20, R21: VALID and SIZE change only by an accepted CONSTRUCT, which leaves VALID 1 and SIZE its operand. -/
def Obligations.OnlyConstructWritesInstance : Prop :=
  ∀ s t : State, unitStep s = .next t → t.valid ≠ s.valid ∨ t.size ≠ s.size →
    s.mode = .idle ∧ ∃ w S, s.program[s.pc]? = some w ∧ decode w = .legal (.construct S) ∧
      t.valid = true ∧ t.size.toNat = S.toNat

/-- R23: the store changes only by an accepted CONSTRUCT, SET, SWAP or CLEAR. -/
def Obligations.OnlyFourCommandsWriteTheStore : Prop :=
  ∀ s t : State, unitStep s = .next t → t.words ≠ s.words →
    s.mode = .idle ∧ ∃ w i, s.program[s.pc]? = some w ∧ decode w = .legal i ∧
      (i = .clear ∨ ∃ x, i = .construct x ∨ i = .set x ∨ i = .swap x)

/-- R27, R28: DUMP_I changes only while DUMPING or by an accepted DUMP, which writes 0; MODE becomes DUMPING only by an
accepted DUMP and IDLE only by the completion step. -/
def Obligations.OnlyDumpMovesTheRenderer : Prop :=
  ∀ s t : State, unitStep s = .next t →
    (t.dumpI ≠ s.dumpI → s.mode = .dumping ∨ (s.program[s.pc]? = some 0x60000000#32 ∧ t.dumpI = 0)) ∧
    (s.mode = .idle → t.mode = .dumping → s.program[s.pc]? = some 0x60000000#32 ∧ s.valid = true) ∧
    (s.mode = .dumping → t.mode = .idle → s.size.toNat ≤ s.dumpI.toNat)

/-! ### Reset -/

/-- R210: what RESET writes and what it leaves: the logs, and the host's own side (R221). -/
def Obligations.ResetWritesEveryRegister : Prop :=
  ∀ s : State,
    s.resetUnit.valid = false ∧ s.resetUnit.size = 0 ∧ (∀ k : Fin 8, s.resetUnit.words.get k = 0) ∧
    s.resetUnit.mode = .idle ∧ s.resetUnit.dumpI = 0 ∧ s.resetUnit.rspStatus = 0 ∧ s.resetUnit.rspData = 0 ∧
    s.resetUnit.rspLog = s.rspLog ∧ s.resetUnit.textLog = s.textLog ∧
    s.resetUnit.program = s.program ∧ s.resetUnit.pc = s.pc

/-- R211, R36, R30, R31: at the start of a run every register has its reset value and both logs are empty. The empty
command list is the model's (log 1). -/
def Obligations.StartOfARun : Prop :=
  State.reset.valid = false ∧ State.reset.size = 0 ∧ (∀ k : Fin 8, State.reset.words.get k = 0) ∧
  State.reset.mode = .idle ∧ State.reset.dumpI = 0 ∧ State.reset.rspStatus = 0 ∧ State.reset.rspData = 0 ∧
  State.reset.rspLog = [] ∧ State.reset.textLog = [] ∧ State.reset.pc = 0

/-- A due reset request is the whole step, in any mode, before any waiting command (R190, R210, R221); the form of the
requests is the model's choice (log 2). -/
def Obligations.ResetTakesTheStepWhenDue : Prop :=
  ∀ (s : State) (later : List Nat), s.resetIn = 0 :: later → step s = .next { s.resetUnit with resetIn := later }

/-- R221: a reset after `k` row steps of a grid leaves exactly the first `k` lines in the text log, no response of the
DUMP, the reset state, and the host's position where DUMP left it; at SIZE = 1 for every `k`. The form of the request is
the model's choice (log 2). -/
def Obligations.ResetCutsTheGridAtALine : Prop :=
  ∀ (s : State) (k : Nat), s.mode = .idle → s.valid = true → s.size.toNat ∈ legalSizes →
    (s.size.toNat = 1 ∨ k ≤ s.rows) → s.resetIn = [k] →
    ∃ t, exec .dump s = .next t ∧
      steps (k + 1) t = .next { s with
        valid := false, size := 0, words := Vector.replicate 8 0, mode := .idle, dumpI := 0, rspStatus := 0
        rspData := 0, textLog := s.textLog ++ s.gridText k, resetIn := [] }

/-- R213: from reset and until a successful CONSTRUCT, each other command answers NOT_CONSTRUCTED and VALID stays 0:
of any list of commands without CONSTRUCT, every response is NOT_CONSTRUCTED. -/
def Obligations.NothingWorksBeforeConstruct : Prop :=
  ∀ (cmds : List Instr) (s : State), s.mode = .idle → s.valid = false → (∀ c ∈ cmds, ∀ S, c ≠ .construct S) →
    ∃ t rs, execAll cmds s = .next t ∧ t.rspLog = s.rspLog ++ rs ∧ rs.length = cmds.length ∧
      (∀ r ∈ rs, r.status = 4) ∧ t.valid = false ∧ t.words = s.words ∧ t.size = s.size ∧ t.mode = .idle

/-! ### Invariants -/

/-- R25: every step keeps the store invariant, with its two consequences: the words past the active ones are 0, and so
are the bits of a small instance's word above its size. -/
def Obligations.StepKeepsStoreInvariant : Prop :=
  ∀ s t : State, StoreInv s → step s = .next t →
    StoreInv t ∧
    (t.valid = true → ∀ k : Fin 8, Config.activeWords t.size.toNat ≤ k.val → t.words.get k = 0) ∧
    (t.valid = true → t.size.toNat < 32 → ∀ b, t.size.toNat ≤ b → (t.words.get 0).getLsbD b = false)

/-- Every step keeps the legal register combinations (R20, R21, R25, R27, R28, R36, R180, R34). -/
def Obligations.StepKeepsLegalState : Prop := ∀ s t : State, Inv s → step s = .next t → Inv t

/-- The machine after reset is in a legal register combination. -/
def Obligations.ResetIsLegal : Prop := Inv State.reset

/-- From a legal register combination every step goes on: no fault and no refusal. A presented word has a meaning (R64),
no error stops the unit (R184), the renderer takes a row or the completion step (R156, R157, R160), a due reset is taken
(R210); an IDLE unit with nothing presented waits (the model's choice, log 4); the faults of log 5 are shut out by `Inv`. -/
def Obligations.LegalStateNeverStops : Prop := ∀ s : State, Inv s → ∃ t, step s = .next t
end

