-- ==== Sys2Proof/Laws/Assembler.lean ====
section
/-! SUPPORT. What the assembler's functions give on the texts of Safety.lean: pieces of a joined text, values of
numerals, words of a line. -/

namespace Sys2Proof.Machine

/-! ### Pieces of a text -/

theorem splitAtByte_of_not_mem {sep : Byte} : ∀ {a : List Byte}, sep ∉ a → splitAtByte sep a = [a]
  | [], _ => rfl
  | c :: cs, h => by
    have h1 : c ≠ sep := fun e => h (by simp [e])
    have h2 := splitAtByte_of_not_mem (fun e => h (List.mem_cons_of_mem c e))
    simp [splitAtByte, h1, h2]

theorem splitAtByte_append {sep : Byte} (b : List Byte) :
    ∀ {a : List Byte}, sep ∉ a → splitAtByte sep (a ++ sep :: b) = a :: splitAtByte sep b
  | [], _ => by simp [splitAtByte]
  | c :: cs, h => by
    have h1 : c ≠ sep := fun e => h (by simp [e])
    have h2 := splitAtByte_append b (fun e => h (List.mem_cons_of_mem c e))
    simp [splitAtByte, h1, h2]

/-- Joining pieces and splitting the text gives the pieces back. -/
theorem splitAtByte_intercalate {sep : Byte} :
    ∀ {ls : List (List Byte)}, ls ≠ [] → (∀ l ∈ ls, sep ∉ l) → splitAtByte sep (List.intercalate [sep] ls) = ls
  | [], h, _ => absurd rfl h
  | [l], _, h => by simpa [List.intercalate] using splitAtByte_of_not_mem (h l (by simp))
  | l :: m :: ls, _, h => by
    have ih := splitAtByte_intercalate (ls := m :: ls) (by simp) (fun x hx => h x (List.mem_cons_of_mem l hx))
    have := splitAtByte_append (List.intercalate [sep] (m :: ls)) (h l (by simp))
    rw [ih] at this
    simpa [List.intercalate] using this

/-! ### Numerals -/

theorem digitsValue?_append (base : Nat) (v : Byte → Option Nat) (b : List Byte) :
    ∀ (a : List Byte) (acc : Nat),
    digitsValue? base v acc (a ++ b) = (digitsValue? base v acc a).bind fun n => digitsValue? base v n b
  | [], _ => rfl
  | c :: cs, acc => by
    simp only [List.cons_append, digitsValue?]
    cases v c with
    | none => rfl
    | some d => exact digitsValue?_append base v b cs _

theorem decimalValue?_digitByte {d : Nat} (h : d < 10) : decimalValue? (digitByte d) = some d := by
  revert d; decide

theorem hexValue?_hexByte (u : Bool) {d : Nat} (h : d < 16) : hexValue? (hexByte u d) = some d := by
  revert u d; decide

theorem digitsValue?_decimal : ∀ (fuel n : Nat), n < fuel →
    digitsValue? 10 decimalValue? 0 ((decimalDigits fuel n).map digitByte) = some n
  | 0, _, h => absurd h (Nat.not_lt_zero _)
  | fuel + 1, n, h => by
    unfold decimalDigits
    split
    · next h1 => simp [digitsValue?, decimalValue?_digitByte h1]
    · next h1 =>
      have ih := digitsValue?_decimal fuel (n / 10) (by omega)
      rw [List.map_append, digitsValue?_append, ih]
      simp [digitsValue?, decimalValue?_digitByte (Nat.mod_lt n (by decide : 0 < 10))]
      omega

theorem decimalDigits_lt : ∀ (fuel n : Nat), ∀ d ∈ decimalDigits fuel n, d < 10
  | 0, _, d, h => by simp [decimalDigits] at h
  | fuel + 1, n, d, h => by
    unfold decimalDigits at h
    split at h
    · simp at h; omega
    · rcases List.mem_append.1 h with h | h
      · exact decimalDigits_lt fuel _ d h
      · simp at h; omega

theorem digitsValue?_hex : ∀ (ds : List (Bool × Nat)) (acc : Nat), (∀ d ∈ ds, d.2 < 16) →
    digitsValue? 16 hexValue? acc (ds.map fun d => hexByte d.1 d.2) = some (ds.foldl (fun v d => v * 16 + d.2) acc)
  | [], _, _ => rfl
  | d :: ds, acc, h => by
    simp only [List.map_cons, digitsValue?, hexValue?_hexByte d.1 (h d (by simp)), List.foldl_cons]
    exact digitsValue?_hex ds _ (fun x hx => h x (List.mem_cons_of_mem d hx))

/-- A digit is no `x`, space, line feed or `#`. -/
theorem digitByte_ne {d : Nat} (h : d < 10) :
    digitByte d ≠ 0x78#8 ∧ digitByte d ≠ spaceByte ∧ digitByte d ≠ lineFeed ∧ digitByte d ≠ 0x23#8 := by
  revert d; decide

theorem hexByte_ne (u : Bool) {d : Nat} (h : d < 16) :
    hexByte u d ≠ spaceByte ∧ hexByte u d ≠ lineFeed ∧ hexByte u d ≠ 0x23#8 := by
  revert u d; decide

theorem dec_ne_nil (n : Nat) : dec n ≠ [] := by
  unfold dec decimalDigits; split <;> simp

theorem numberValue?_dec (n : Nat) : numberValue? (dec n) = some n := by
  have h := digitsValue?_decimal (n + 1) n (by omega)
  have hx : ∀ b ∈ dec n, b ≠ 0x78#8 := by
    intro b hb
    obtain ⟨d, hd, rfl⟩ := List.mem_map.1 hb
    exact (digitByte_ne (decimalDigits_lt _ _ d hd)).1
  change digitsValue? 10 decimalValue? 0 (dec n) = some n at h
  revert h hx
  cases hn : dec n with
  | nil => exact absurd hn (dec_ne_nil n)
  | cons c cs =>
    intro h hx
    have hc : ¬ (c = digitByte 0 ∧ cs.head? = some 0x78#8) := by
      rintro ⟨-, h2⟩
      exact h 0x78#8 (List.mem_cons_of_mem c (List.mem_of_mem_head? h2)) rfl
    simpa [numberValue?, hc] using hx

/-- The value of a numeral of `n` is `n`. -/
theorem numberValue?_numeral {n : Nat} {m : List Byte} (h : IsNumeral n m) : numberValue? m = some n := by
  rcases h with rfl | ⟨ds, hne, hlt, rfl, rfl⟩
  · exact numberValue?_dec n
  · have h := digitsValue?_hex ds 0 hlt
    cases ds with
    | nil => exact absurd rfl hne
    | cons d ds =>
      simpa [numberValue?, ascii, digitByte] using h

theorem numeral_bytes {n : Nat} {m : List Byte} (h : IsNumeral n m) :
    m ≠ [] ∧ ∀ b ∈ m, b ≠ spaceByte ∧ b ≠ lineFeed ∧ b ≠ 0x23#8 := by
  rcases h with rfl | ⟨ds, hne, hlt, -, rfl⟩
  · refine ⟨dec_ne_nil n, fun b hb => ?_⟩
    obtain ⟨d, hd, rfl⟩ := List.mem_map.1 hb
    exact (digitByte_ne (decimalDigits_lt _ _ d hd)).2
  · refine ⟨by simp [ascii], fun b hb => ?_⟩
    rcases List.mem_append.1 hb with hb | hb
    · exact (by decide : ∀ b ∈ ascii "0x", b ≠ spaceByte ∧ b ≠ lineFeed ∧ b ≠ 0x23#8) b hb
    · obtain ⟨d, hd, rfl⟩ := List.mem_map.1 hb
      exact hexByte_ne _ (hlt d hd)

/-! ### Lines -/

theorem mnemonic_bytes (i : Instr) :
    mnemonic i ≠ [] ∧ ∀ b ∈ mnemonic i, b ≠ spaceByte ∧ b ≠ lineFeed ∧ b ≠ 0x23#8 := by
  cases i <;> simp only [mnemonic] <;> exact ⟨by decide, by decide⟩

theorem splitAtByte_spaces (k : Nat) : (splitAtByte spaceByte (List.replicate k spaceByte)).filter (· ≠ []) = [] := by
  induction k with
  | zero => rfl
  | succ k ih => simpa [List.replicate_succ, splitAtByte] using ih

/-- Without its comment, a trailer is spaces. -/
theorem takeWhile_trailer {t u : List Byte} (h : ∀ b ∈ t, b ≠ 0x23#8) (hu : IsTrailer u) :
    ∃ k, (t ++ u).takeWhile (· ≠ 0x23#8) = t ++ List.replicate k spaceByte := by
  obtain ⟨k, hk⟩ := hu
  have hs : ∀ x, (List.replicate k spaceByte ++ x).takeWhile (· ≠ 0x23#8) =
      List.replicate k spaceByte ++ x.takeWhile (· ≠ 0x23#8) := fun x =>
    List.takeWhile_append_of_pos (by intro b hb; rw [List.eq_of_mem_replicate hb]; decide)
  refine ⟨k, ?_⟩
  rw [List.takeWhile_append_of_pos (by simpa using h)]
  congr 1
  rcases hk with rfl | ⟨c, -, rfl⟩
  · simpa using hs []
  · rw [hs]; simp

theorem splitAtByte_word_spaces {m : List Byte} (h : spaceByte ∉ m) (hm : m ≠ []) (k : Nat) :
    (splitAtByte spaceByte (m ++ List.replicate k spaceByte)).filter (· ≠ []) = [m] := by
  cases k with
  | zero => simp [splitAtByte_of_not_mem h, hm]
  | succ k =>
    rw [List.replicate_succ, splitAtByte_append _ h, List.filter_cons, splitAtByte_spaces k]
    simp [hm]

/-- A line of no command has no words. -/
theorem lineTokens_trailer {u : List Byte} (hu : IsTrailer u) : lineTokens u = [] := by
  obtain ⟨k, h⟩ := takeWhile_trailer (t := []) (by simp) hu
  simp only [List.nil_append] at h
  rw [lineTokens, h, splitAtByte_spaces]

/-- The words of a line of a command are read as that command. -/
theorem parseTokens_line {i : Instr} {l : List Byte} (h : IsLine (some i) l) :
    lineTokens l ≠ [] ∧ parseTokens (lineTokens l) = some i := by
  obtain ⟨t, u, ht, hu, rfl⟩ := h
  obtain ⟨hne, hb⟩ := mnemonic_bytes i
  have one : t = mnemonic i → lineTokens (t ++ u) = [mnemonic i] := by
    rintro rfl
    obtain ⟨k, h⟩ := takeWhile_trailer (fun b hx => (hb b hx).2.2) hu
    rw [lineTokens, h]
    exact splitAtByte_word_spaces (fun e => (hb _ e).1 rfl) hne k
  have two : ∀ n : Operand, (∃ m, IsNumeral n.toNat m ∧ t = mnemonic i ++ spaceByte :: m) →
      ∃ m, operand? m = some n ∧ lineTokens (t ++ u) = [mnemonic i, m] := by
    rintro n ⟨m, hm, rfl⟩
    obtain ⟨hmne, hmb⟩ := numeral_bytes hm
    refine ⟨m, by simp [operand?, numberValue?_numeral hm, n.isLt], ?_⟩
    obtain ⟨k, h⟩ := takeWhile_trailer (t := mnemonic i ++ spaceByte :: m) (by
      intro b hx
      rcases List.mem_append.1 hx with hx | hx
      · exact (hb b hx).2.2
      · rcases List.mem_cons.1 hx with rfl | hx
        · decide
        · exact (hmb b hx).2.2) hu
    rw [lineTokens, h, List.append_assoc, List.cons_append, splitAtByte_append _ (fun e => (hb _ e).1 rfl),
      List.filter_cons, splitAtByte_word_spaces (fun e => (hmb _ e).1 rfl) hmne]
    simp [hne]
  cases i with
  | clear => rw [one ht]; decide
  | dump => rw [one ht]; decide
  | construct n => obtain ⟨m, hm, h⟩ := two n ht; rw [h]; simp [parseTokens, hm, mnemonic]
  | get n => obtain ⟨m, hm, h⟩ := two n ht; rw [h]; simp [parseTokens, hm, mnemonic, ascii]
  | set n => obtain ⟨m, hm, h⟩ := two n ht; rw [h]; simp [parseTokens, hm, mnemonic, ascii]
  | swap n => obtain ⟨m, hm, h⟩ := two n ht; rw [h]; simp [parseTokens, hm, mnemonic, ascii]

theorem lineFeed_not_mem_trailer {u : List Byte} (h : IsTrailer u) : lineFeed ∉ u := by
  obtain ⟨k, rfl | ⟨c, hc, rfl⟩⟩ := h
  · intro h; have := List.eq_of_mem_replicate h; revert this; decide
  · intro h
    rcases List.mem_append.1 h with h | h
    · have := List.eq_of_mem_replicate h; revert this; decide
    · rcases List.mem_cons.1 h with h | h
      · revert h; decide
      · exact hc h

/-- A line has no line feed, so a text of joined lines splits into them. -/
theorem lineFeed_not_mem_line {o : Option Instr} {l : List Byte} (h : IsLine o l) : lineFeed ∉ l := by
  cases o with
  | none => exact lineFeed_not_mem_trailer h
  | some i =>
    obtain ⟨t, u, ht, hu, rfl⟩ := h
    have hb := (mnemonic_bytes i).2
    have two : ∀ n : Operand, (∃ m, IsNumeral n.toNat m ∧ t = mnemonic i ++ spaceByte :: m) → lineFeed ∉ t := by
      rintro n ⟨m, hm, rfl⟩ h
      rcases List.mem_append.1 h with h | h
      · exact (hb _ h).2.1 rfl
      · rcases List.mem_cons.1 h with h | h
        · revert h; decide
        · exact ((numeral_bytes hm).2 _ h).2.1 rfl
    have : lineFeed ∉ t := by
      cases i with
      | clear => rw [show t = _ from ht]; decide
      | dump => rw [show t = _ from ht]; decide
      | construct n => exact two n ht
      | get n => exact two n ht
      | set n => exact two n ht
      | swap n => exact two n ht
    simp [this, lineFeed_not_mem_trailer hu]

end Sys2Proof.Machine
end

