-- ==== Sys2Proof/Laws/State.lean ====
section
/-! SUPPORT. One lemma per field of State and named update, true by `rfl`, so that no proof unfolds a record update; the
bits a word write and a zeroing leave; the reading of the response and error operations in the claims' vocabulary. -/

namespace Sys2Proof.Machine

variable (s : State)

/-! `setWord` -/

@[simp] theorem setWord_valid (k : Nat) (v : Word) : (s.setWord k v).valid = s.valid := rfl
@[simp] theorem setWord_size (k : Nat) (v : Word) : (s.setWord k v).size = s.size := rfl
@[simp] theorem setWord_words (k : Nat) (v : Word) : (s.setWord k v).words = s.words.setIfInBounds k v := rfl
@[simp] theorem setWord_mode (k : Nat) (v : Word) : (s.setWord k v).mode = s.mode := rfl
@[simp] theorem setWord_dumpI (k : Nat) (v : Word) : (s.setWord k v).dumpI = s.dumpI := rfl
@[simp] theorem setWord_rspStatus (k : Nat) (v : Word) : (s.setWord k v).rspStatus = s.rspStatus := rfl
@[simp] theorem setWord_rspData (k : Nat) (v : Word) : (s.setWord k v).rspData = s.rspData := rfl
@[simp] theorem setWord_rspLog (k : Nat) (v : Word) : (s.setWord k v).rspLog = s.rspLog := rfl
@[simp] theorem setWord_textLog (k : Nat) (v : Word) : (s.setWord k v).textLog = s.textLog := rfl
@[simp] theorem setWord_program (k : Nat) (v : Word) : (s.setWord k v).program = s.program := rfl
@[simp] theorem setWord_pc (k : Nat) (v : Word) : (s.setWord k v).pc = s.pc := rfl
@[simp] theorem setWord_resetIn (k : Nat) (v : Word) : (s.setWord k v).resetIn = s.resetIn := rfl

/-! `zeroWords` -/

@[simp] theorem zeroWords_valid : s.zeroWords.valid = s.valid := rfl
@[simp] theorem zeroWords_size : s.zeroWords.size = s.size := rfl
@[simp] theorem zeroWords_words : s.zeroWords.words = Vector.replicate 8 0 := rfl
@[simp] theorem zeroWords_mode : s.zeroWords.mode = s.mode := rfl
@[simp] theorem zeroWords_dumpI : s.zeroWords.dumpI = s.dumpI := rfl
@[simp] theorem zeroWords_rspStatus : s.zeroWords.rspStatus = s.rspStatus := rfl
@[simp] theorem zeroWords_rspData : s.zeroWords.rspData = s.rspData := rfl
@[simp] theorem zeroWords_rspLog : s.zeroWords.rspLog = s.rspLog := rfl
@[simp] theorem zeroWords_textLog : s.zeroWords.textLog = s.textLog := rfl
@[simp] theorem zeroWords_program : s.zeroWords.program = s.program := rfl
@[simp] theorem zeroWords_pc : s.zeroWords.pc = s.pc := rfl
@[simp] theorem zeroWords_resetIn : s.zeroWords.resetIn = s.resetIn := rfl

/-! `respond` -/

@[simp] theorem respond_valid (st : Status) (d : Word) : (s.respond st d).valid = s.valid := rfl
@[simp] theorem respond_size (st : Status) (d : Word) : (s.respond st d).size = s.size := rfl
@[simp] theorem respond_words (st : Status) (d : Word) : (s.respond st d).words = s.words := rfl
@[simp] theorem respond_mode (st : Status) (d : Word) : (s.respond st d).mode = s.mode := rfl
@[simp] theorem respond_dumpI (st : Status) (d : Word) : (s.respond st d).dumpI = s.dumpI := rfl
@[simp] theorem respond_rspStatus (st : Status) (d : Word) : (s.respond st d).rspStatus = st.code := rfl
@[simp] theorem respond_rspData (st : Status) (d : Word) : (s.respond st d).rspData = d := rfl
@[simp] theorem respond_rspLog (st : Status) (d : Word) : (s.respond st d).rspLog = s.rspLog ++ [⟨st.code, d⟩] := rfl
@[simp] theorem respond_textLog (st : Status) (d : Word) : (s.respond st d).textLog = s.textLog := rfl
@[simp] theorem respond_program (st : Status) (d : Word) : (s.respond st d).program = s.program := rfl
@[simp] theorem respond_pc (st : Status) (d : Word) : (s.respond st d).pc = s.pc := rfl
@[simp] theorem respond_resetIn (st : Status) (d : Word) : (s.respond st d).resetIn = s.resetIn := rfl

/-! `emit` -/

@[simp] theorem emit_valid (text : List Byte) : (s.emit text).valid = s.valid := rfl
@[simp] theorem emit_size (text : List Byte) : (s.emit text).size = s.size := rfl
@[simp] theorem emit_words (text : List Byte) : (s.emit text).words = s.words := rfl
@[simp] theorem emit_mode (text : List Byte) : (s.emit text).mode = s.mode := rfl
@[simp] theorem emit_dumpI (text : List Byte) : (s.emit text).dumpI = s.dumpI := rfl
@[simp] theorem emit_rspStatus (text : List Byte) : (s.emit text).rspStatus = s.rspStatus := rfl
@[simp] theorem emit_rspData (text : List Byte) : (s.emit text).rspData = s.rspData := rfl
@[simp] theorem emit_rspLog (text : List Byte) : (s.emit text).rspLog = s.rspLog := rfl
@[simp] theorem emit_textLog (text : List Byte) : (s.emit text).textLog = s.textLog ++ text := rfl
@[simp] theorem emit_program (text : List Byte) : (s.emit text).program = s.program := rfl
@[simp] theorem emit_pc (text : List Byte) : (s.emit text).pc = s.pc := rfl
@[simp] theorem emit_resetIn (text : List Byte) : (s.emit text).resetIn = s.resetIn := rfl

/-! `setInstance` -/

@[simp] theorem setInstance_valid (n : BitVec 9) : (s.setInstance n).valid = true := rfl
@[simp] theorem setInstance_size (n : BitVec 9) : (s.setInstance n).size = n := rfl
@[simp] theorem setInstance_words (n : BitVec 9) : (s.setInstance n).words = s.words := rfl
@[simp] theorem setInstance_mode (n : BitVec 9) : (s.setInstance n).mode = s.mode := rfl
@[simp] theorem setInstance_dumpI (n : BitVec 9) : (s.setInstance n).dumpI = s.dumpI := rfl
@[simp] theorem setInstance_rspStatus (n : BitVec 9) : (s.setInstance n).rspStatus = s.rspStatus := rfl
@[simp] theorem setInstance_rspData (n : BitVec 9) : (s.setInstance n).rspData = s.rspData := rfl
@[simp] theorem setInstance_rspLog (n : BitVec 9) : (s.setInstance n).rspLog = s.rspLog := rfl
@[simp] theorem setInstance_textLog (n : BitVec 9) : (s.setInstance n).textLog = s.textLog := rfl
@[simp] theorem setInstance_program (n : BitVec 9) : (s.setInstance n).program = s.program := rfl
@[simp] theorem setInstance_pc (n : BitVec 9) : (s.setInstance n).pc = s.pc := rfl
@[simp] theorem setInstance_resetIn (n : BitVec 9) : (s.setInstance n).resetIn = s.resetIn := rfl

/-! `setMode` -/

@[simp] theorem setMode_valid (m : Mode) : (s.setMode m).valid = s.valid := rfl
@[simp] theorem setMode_size (m : Mode) : (s.setMode m).size = s.size := rfl
@[simp] theorem setMode_words (m : Mode) : (s.setMode m).words = s.words := rfl
@[simp] theorem setMode_mode (m : Mode) : (s.setMode m).mode = m := rfl
@[simp] theorem setMode_dumpI (m : Mode) : (s.setMode m).dumpI = s.dumpI := rfl
@[simp] theorem setMode_rspStatus (m : Mode) : (s.setMode m).rspStatus = s.rspStatus := rfl
@[simp] theorem setMode_rspData (m : Mode) : (s.setMode m).rspData = s.rspData := rfl
@[simp] theorem setMode_rspLog (m : Mode) : (s.setMode m).rspLog = s.rspLog := rfl
@[simp] theorem setMode_textLog (m : Mode) : (s.setMode m).textLog = s.textLog := rfl
@[simp] theorem setMode_program (m : Mode) : (s.setMode m).program = s.program := rfl
@[simp] theorem setMode_pc (m : Mode) : (s.setMode m).pc = s.pc := rfl
@[simp] theorem setMode_resetIn (m : Mode) : (s.setMode m).resetIn = s.resetIn := rfl

/-! `setDumpI` -/

@[simp] theorem setDumpI_valid (i : BitVec 9) : (s.setDumpI i).valid = s.valid := rfl
@[simp] theorem setDumpI_size (i : BitVec 9) : (s.setDumpI i).size = s.size := rfl
@[simp] theorem setDumpI_words (i : BitVec 9) : (s.setDumpI i).words = s.words := rfl
@[simp] theorem setDumpI_mode (i : BitVec 9) : (s.setDumpI i).mode = s.mode := rfl
@[simp] theorem setDumpI_dumpI (i : BitVec 9) : (s.setDumpI i).dumpI = i := rfl
@[simp] theorem setDumpI_rspStatus (i : BitVec 9) : (s.setDumpI i).rspStatus = s.rspStatus := rfl
@[simp] theorem setDumpI_rspData (i : BitVec 9) : (s.setDumpI i).rspData = s.rspData := rfl
@[simp] theorem setDumpI_rspLog (i : BitVec 9) : (s.setDumpI i).rspLog = s.rspLog := rfl
@[simp] theorem setDumpI_textLog (i : BitVec 9) : (s.setDumpI i).textLog = s.textLog := rfl
@[simp] theorem setDumpI_program (i : BitVec 9) : (s.setDumpI i).program = s.program := rfl
@[simp] theorem setDumpI_pc (i : BitVec 9) : (s.setDumpI i).pc = s.pc := rfl
@[simp] theorem setDumpI_resetIn (i : BitVec 9) : (s.setDumpI i).resetIn = s.resetIn := rfl

/-! `advance` -/

@[simp] theorem advance_valid : s.advance.valid = s.valid := rfl
@[simp] theorem advance_size : s.advance.size = s.size := rfl
@[simp] theorem advance_words : s.advance.words = s.words := rfl
@[simp] theorem advance_mode : s.advance.mode = s.mode := rfl
@[simp] theorem advance_dumpI : s.advance.dumpI = s.dumpI := rfl
@[simp] theorem advance_rspStatus : s.advance.rspStatus = s.rspStatus := rfl
@[simp] theorem advance_rspData : s.advance.rspData = s.rspData := rfl
@[simp] theorem advance_rspLog : s.advance.rspLog = s.rspLog := rfl
@[simp] theorem advance_textLog : s.advance.textLog = s.textLog := rfl
@[simp] theorem advance_program : s.advance.program = s.program := rfl
@[simp] theorem advance_pc : s.advance.pc = s.pc + 1 := rfl
@[simp] theorem advance_resetIn : s.advance.resetIn = s.resetIn := rfl

/-! `setResetIn` -/

@[simp] theorem setResetIn_valid (r : List Nat) : (s.setResetIn r).valid = s.valid := rfl
@[simp] theorem setResetIn_size (r : List Nat) : (s.setResetIn r).size = s.size := rfl
@[simp] theorem setResetIn_words (r : List Nat) : (s.setResetIn r).words = s.words := rfl
@[simp] theorem setResetIn_mode (r : List Nat) : (s.setResetIn r).mode = s.mode := rfl
@[simp] theorem setResetIn_dumpI (r : List Nat) : (s.setResetIn r).dumpI = s.dumpI := rfl
@[simp] theorem setResetIn_rspStatus (r : List Nat) : (s.setResetIn r).rspStatus = s.rspStatus := rfl
@[simp] theorem setResetIn_rspData (r : List Nat) : (s.setResetIn r).rspData = s.rspData := rfl
@[simp] theorem setResetIn_rspLog (r : List Nat) : (s.setResetIn r).rspLog = s.rspLog := rfl
@[simp] theorem setResetIn_textLog (r : List Nat) : (s.setResetIn r).textLog = s.textLog := rfl
@[simp] theorem setResetIn_program (r : List Nat) : (s.setResetIn r).program = s.program := rfl
@[simp] theorem setResetIn_pc (r : List Nat) : (s.setResetIn r).pc = s.pc := rfl
@[simp] theorem setResetIn_resetIn (r : List Nat) : (s.setResetIn r).resetIn = r := rfl

/-! `resetUnit` -/

@[simp] theorem resetUnit_valid : s.resetUnit.valid = false := rfl
@[simp] theorem resetUnit_size : s.resetUnit.size = 0 := rfl
@[simp] theorem resetUnit_words : s.resetUnit.words = Vector.replicate 8 0 := rfl
@[simp] theorem resetUnit_mode : s.resetUnit.mode = .idle := rfl
@[simp] theorem resetUnit_dumpI : s.resetUnit.dumpI = 0 := rfl
@[simp] theorem resetUnit_rspStatus : s.resetUnit.rspStatus = 0 := rfl
@[simp] theorem resetUnit_rspData : s.resetUnit.rspData = 0 := rfl
@[simp] theorem resetUnit_rspLog : s.resetUnit.rspLog = s.rspLog := rfl
@[simp] theorem resetUnit_textLog : s.resetUnit.textLog = s.textLog := rfl
@[simp] theorem resetUnit_program : s.resetUnit.program = s.program := rfl
@[simp] theorem resetUnit_pc : s.resetUnit.pc = s.pc := rfl
@[simp] theorem resetUnit_resetIn : s.resetUnit.resetIn = s.resetIn := rfl

/-! Reading after writing -/

/-- An error is a response (R16). -/
@[simp] theorem raise_eq_respond (e : Status) (d : Word) : s.raise e d = s.respond e d := rfl

/-- A response in the claims' vocabulary. -/
theorem respond_eq_answered (st : Status) (d : Word) : s.respond st d = s.answered st.code d := rfl

theorem word?_eq (k : Nat) : s.word? k = s.words[k]? := rfl

/-- A word index up to 7 names a register. -/
theorem word?_of_lt {k : Nat} (h : k < 8) : s.word? k = some (s.words.get ⟨k, h⟩) := by
  simp [State.word?, Vector.get, h]

/-- A word index above 7 names none. -/
theorem word?_of_ge {k : Nat} (h : 8 ≤ k) : s.word? k = none := by
  simp [State.word?, h]

@[simp] theorem word?_respond (st : Status) (d : Word) (k : Nat) : (s.respond st d).word? k = s.word? k := rfl

@[simp] theorem word?_setWord (k : Nat) (v : Word) (j : Nat) :
    (s.setWord k v).word? j = if k = j ∧ k < 8 then some v else s.word? j := by
  simp only [State.word?, setWord_words, Vector.getElem?_setIfInBounds]
  split <;> simp_all

@[simp] theorem word?_zeroWords (k : Nat) : s.zeroWords.word? k = if k < 8 then some 0 else none := by
  simp [State.word?, Vector.getElem?_replicate]

/-- `BitRead(p)` depends on the store alone (R42). -/
theorem bitRead?_congr {s t : State} (h : s.words = t.words) (p : Nat) : s.bitRead? p = t.bitRead? p := by
  simp [State.bitRead?, State.word?, h]

@[simp] theorem bitRead?_respond (st : Status) (d : Word) (p : Nat) : (s.respond st d).bitRead? p = s.bitRead? p := rfl

@[simp] theorem bitRead?_advance (p : Nat) : s.advance.bitRead? p = s.bitRead? p := rfl

@[simp] theorem bitRead?_setResetIn (r : List Nat) (p : Nat) : (s.setResetIn r).bitRead? p = s.bitRead? p := rfl

/-- Every position of a zeroed store reads 0. -/
theorem bitRead?_zeroWords {p : Nat} (h : p < 256) : s.zeroWords.bitRead? p = some false := by
  have : wordIndex p < 8 := by simp only [wordIndex, Config.wordBits]; omega
  simp [State.bitRead?, this]

/-- A position below 256 exists. -/
theorem bitRead?_isSome {p : Nat} (h : p < 256) : ∃ b, s.bitRead? p = some b := by
  have : wordIndex p < 8 := by simp only [wordIndex, Config.wordBits]; omega
  simp [State.bitRead?, word?_of_lt s this]

/-- The state an answer is made of (the claims' word for a response). -/
@[simp] theorem nextState?_next (t : State) : nextState? (.next t) = some t := rfl

end Sys2Proof.Machine
end

