-- ==== Sys2Proof/Laws/Ops.lean ====
section
/-! SUPPORT. One lemma per shared operation that says once everything it can do; later proofs cite it instead of unfolding
the operation. -/

namespace Sys2Proof.Machine

/-! Config -/

@[simp] theorem wordBits_eq : Config.wordBits = 32 := rfl
@[simp] theorem maxSize_eq : Config.maxSize = 256 := rfl
@[simp] theorem labelWidth_eq : Config.labelWidth = 3 := rfl

theorem wordIndex_eq (n : Nat) : wordIndex n = n / 32 := rfl
theorem bitOffset_eq (n : Nat) : bitOffset n = n % 32 := rfl
theorem mask_eq (n : Nat) : mask n = 1#32 <<< (n % 32) := rfl

/-! Acceptance -/

theorem whenIdle_idle {s : State} (h : s.mode = .idle) (effect : Result) : whenIdle s effect = effect := by
  simp [whenIdle, h]

theorem whenIdle_dumping {s : State} (h : s.mode = .dumping) (effect : Result) : whenIdle s effect = .next s := by
  simp [whenIdle, h]

theorem whenConstructed_valid {s : State} (h : s.valid = true) (d : Word) (effect : Result) :
    whenConstructed s d effect = effect := by
  simp [whenConstructed, h]

theorem whenConstructed_invalid {s : State} (h : s.valid = false) (d : Word) (effect : Result) :
    whenConstructed s d effect = .next (s.respond .notConstructed d) := by
  simp [whenConstructed, h]

/-! The operand checks -/

/-- What the index check answers, in its order (R103). -/
theorem checkIndex_cases (n : Operand) (s : State) :
    (s.valid = false ∧ checkIndex n s = some .notConstructed) ∨
    (s.valid = true ∧ s.size.toNat ≤ n.toNat ∧ checkIndex n s = some .indexOutOfRange) ∨
    (s.valid = true ∧ n.toNat < s.size.toNat ∧ checkIndex n s = none) := by
  unfold checkIndex
  cases s.valid
  · simp
  · by_cases h : s.size.toNat ≤ n.toNat
    · simp [h]
    · simp [h]; omega

/-- What the size check answers, in its order (R81). -/
theorem checkSize_cases (n : Operand) :
    (isPow2 n.toNat = false ∧ checkSize n = some .notPowerOfTwo) ∨
    (isPow2 n.toNat = true ∧ 256 < n.toNat ∧ checkSize n = some .exceedsCapacity) ∨
    (isPow2 n.toNat = true ∧ n.toNat ≤ 256 ∧ checkSize n = none) := by
  unfold checkSize
  cases isPow2 n.toNat
  · simp
  · by_cases h : 256 < n.toNat
    · simp [h]
    · simp [h]; omega

/-- Everything the shared bit access can do: one of the two error responses, the effect on the word the index names, or,
only where SIZE is above 256, the stop (R103). -/
theorem withIndexedWord_cases (n : Operand) (s : State) (effect : Word → State) :
    (s.valid = false ∧ withIndexedWord n s effect = .next (s.respond .notConstructed (zext32 n))) ∨
    (s.valid = true ∧ s.size.toNat ≤ n.toNat ∧
      withIndexedWord n s effect = .next (s.respond .indexOutOfRange (zext32 n))) ∨
    (s.valid = true ∧ n.toNat < s.size.toNat ∧ ∃ k : Fin 8, k.val = n.toNat / 32 ∧
      withIndexedWord n s effect = .next (effect (s.words.get k))) ∨
    (s.valid = true ∧ n.toNat < s.size.toNat ∧ 256 ≤ n.toNat ∧ withIndexedWord n s effect = .fault .noSuchWord) := by
  rcases checkIndex_cases n s with ⟨hv, hc⟩ | ⟨hv, hn, hc⟩ | ⟨hv, hn, hc⟩
  · exact .inl ⟨hv, by simp [withIndexedWord, hc]⟩
  · exact .inr (.inl ⟨hv, hn, by simp [withIndexedWord, hc]⟩)
  · by_cases h : n.toNat < 256
    · have hk : wordIndex n.toNat < 8 := by simp only [wordIndex, wordBits_eq]; omega
      exact .inr (.inr (.inl ⟨hv, hn, ⟨_, hk⟩, rfl, by simp [withIndexedWord, hc, word?_of_lt s hk]⟩))
    · have hk : 8 ≤ wordIndex n.toNat := by simp only [wordIndex, wordBits_eq]; omega
      exact .inr (.inr (.inr ⟨hv, hn, by omega, by simp [withIndexedWord, hc, word?_of_ge s hk]⟩))

/-! Powers of two -/

theorem isPow2_iff (n : Nat) : isPow2 n = true ↔ n = 2 ^ Nat.log2 n := by simp [isPow2]

theorem log2?_eq_some {n k : Nat} (h : log2? n = some k) : isPow2 n = true ∧ k = Nat.log2 n := by
  unfold log2? at h
  split at h <;> simp_all

/-- The logarithm of a legal size (R150). -/
theorem log2?_legal {n : Nat} (h : n ∈ legalSizes) : log2? n = some (Nat.log2 n) := by
  revert n; decide

theorem legal_le {n : Nat} (h : n ∈ legalSizes) : 1 ≤ n ∧ n ≤ 256 := by revert n; decide

/-! The renderer -/

/-- The renderer's read of a run of positions, all of them below 256 (R156). -/
theorem bitsFrom?_of_le (s : State) : ∀ (count p : Nat), p + count ≤ 256 →
    ∃ bits, s.bitsFrom? p count = some bits ∧ bits.length = count ∧
      ∀ j, j < count → bits[j]? = s.bitRead? (p + j)
  | 0, _, _ => ⟨[], rfl, rfl, by omega⟩
  | count + 1, p, h => by
    obtain ⟨b, hb⟩ := bitRead?_isSome s (p := p) (by omega)
    obtain ⟨bs, hbs, hl, hj⟩ := bitsFrom?_of_le s count (p + 1) (by omega)
    refine ⟨b :: bs, by simp [State.bitsFrom?, hb, hbs], by simp [hl], ?_⟩
    intro j hlt
    cases j with
    | zero => simp [hb]
    | succ j => simpa [Nat.add_assoc, Nat.add_comm 1 j] using hj j (by omega)

/-- Everything a renderer step can do (R156, R157): a row, the completion, or a stop on an illegal SIZE or DUMP_I. -/
theorem renderStep_cases (s : State) :
    (∃ bits, isPow2 s.size.toNat = true ∧ s.dumpI.toNat < s.size.toNat ∧
      s.bitsFrom? s.dumpI.toNat s.slide = some bits ∧
      renderStep s = .next ((s.emit (Row.mk s.dumpI.toNat bits).line).setDumpI
        (BitVec.ofNat 9 (s.dumpI.toNat + s.slide)))) ∨
    (isPow2 s.size.toNat = true ∧ s.size.toNat ≤ s.dumpI.toNat ∧ s.slide ≠ 0 ∧
      renderStep s = .next ((s.setMode .idle).respond .ok (BitVec.ofNat 32 s.rows))) ∨
    (∃ f, renderStep s = .fault f) := by
  unfold renderStep
  cases hl : log2? s.size.toNat with
  | none => exact .inr (.inr ⟨_, rfl⟩)
  | some base =>
    obtain ⟨hp, rfl⟩ := log2?_eq_some hl
    by_cases hd : s.dumpI.toNat < s.size.toNat
    · cases hb : s.bitsFrom? s.dumpI.toNat s.slide with
      | none => exact .inr (.inr ⟨_, by simp only [hd, if_true, renderRow]; rw [show slideOf _ = s.slide from rfl, hb]⟩)
      | some bits =>
        exact .inl ⟨bits, hp, hd, rfl, by
          simp only [hd, if_true, renderRow]; rw [show slideOf _ = s.slide from rfl, hb]⟩
    · by_cases h0 : s.slide = 0
      · exact .inr (.inr ⟨_, by simp only [hd, if_false, renderDone]; rw [show slideOf _ = s.slide from rfl, if_pos h0]⟩)
      · exact .inr (.inl ⟨hp, by omega, h0, by
          simp only [hd, if_false, renderDone]; rw [show slideOf _ = s.slide from rfl, if_neg h0]; rfl⟩)

/-! Commands, words, steps -/

/-- What a command never touches: the host's side and the text log (R31, R34, R36). -/
theorem exec_leaves_host {i : Instr} {s t : State} (h : exec i s = .next t) :
    t.program = s.program ∧ t.pc = s.pc ∧ t.resetIn = s.resetIn ∧ t.textLog = s.textLog := by
  cases hm : s.mode with
  | dumping =>
    have held : exec i s = .next s := by cases i <;> exact whenIdle_dumping hm _
    rw [held] at h; cases h; simp
  | idle =>
    have access : ∀ (n : Operand) (effect : Word → State),
        (∀ w, (effect w).program = s.program ∧ (effect w).pc = s.pc ∧ (effect w).resetIn = s.resetIn ∧
          (effect w).textLog = s.textLog) → withIndexedWord n s effect = .next t →
        t.program = s.program ∧ t.pc = s.pc ∧ t.resetIn = s.resetIn ∧ t.textLog = s.textLog := by
      intro n effect he hr
      rcases withIndexedWord_cases n s effect with ⟨_, hw⟩ | ⟨_, _, hw⟩ | ⟨_, _, k, _, hw⟩ | ⟨_, _, _, hw⟩ <;>
        rw [hw] at hr <;> cases hr <;> simp [he]
    cases i with
    | construct n =>
      rcases checkSize_cases n with ⟨_, hc⟩ | ⟨_, _, hc⟩ | ⟨_, _, hc⟩ <;>
        simp [exec, execConstruct, whenIdle_idle hm, hc] at h <;> subst h <;> simp
    | get n =>
      rw [exec, execGet, whenIdle_idle hm] at h
      exact access n _ (by simp) h
    | set n =>
      rw [exec, execSet, whenIdle_idle hm] at h
      exact access n _ (by simp) h
    | swap n =>
      rw [exec, execSwap, whenIdle_idle hm] at h
      exact access n _ (by simp) h
    | clear =>
      cases hv : s.valid <;>
        simp [exec, execClear, whenIdle_idle hm, whenConstructed, hv] at h <;> subst h <;> simp
    | dump =>
      cases hv : s.valid <;>
        simp [exec, execDump, whenIdle_idle hm, whenConstructed, hv] at h <;> subst h <;> simp

/-- An accepted word is a command's effect or the response ILLEGAL_COMMAND (R64, R185). -/
theorem acceptWord_cases (w : Word) (s : State) :
    (∃ i, decode w = .legal i ∧ acceptWord w s = exec i s) ∨
    (∃ why, decode w = .illegal why ∧ acceptWord w s = .next (s.respond .illegalCommand w)) := by
  unfold acceptWord
  cases decode w with
  | legal i => exact .inl ⟨i, rfl, rfl⟩
  | illegal why => exact .inr ⟨why, rfl, rfl⟩

/-- Everything one step of the unit can be (R155, R220). -/
theorem unitStep_cases (s : State) :
    (s.mode = .dumping ∧ unitStep s = renderStep s) ∨
    (s.mode = .idle ∧ s.presented = none ∧ unitStep s = .next s) ∨
    (∃ w, s.mode = .idle ∧ s.presented = some w ∧ unitStep s = acceptWord w s.advance) := by
  unfold unitStep acceptStep
  cases hm : s.mode with
  | dumping => exact .inl ⟨rfl, rfl⟩
  | idle =>
    cases hp : s.presented with
    | none => exact .inr (.inl ⟨rfl, rfl, rfl⟩)
    | some w => exact .inr (.inr ⟨w, rfl, rfl, rfl⟩)

/-- Everything one step of the machine can be: a reset, or one step of the unit (R210, log 2). -/
theorem step_cases (s : State) :
    (∃ later, s.resetIn = 0 :: later ∧ step s = .next (s.resetUnit.setResetIn later)) ∨
    (s.resetIn.head? ≠ some 0 ∧ step s = unitStep (s.setResetIn (nearer s.resetIn))) := by
  unfold step machineStep
  rcases hr : s.resetIn with _ | ⟨_ | n, later⟩
  · exact .inr ⟨by simp, by simp only [nearer]; rw [← hr]; rfl⟩
  · exact .inl ⟨later, rfl, rfl⟩
  · exact .inr ⟨by simp, rfl⟩

/-- With no reset request, a step is the unit's. -/
theorem step_of_no_requests {s : State} (h : s.resetIn = []) : step s = unitStep s := by
  simp [step, machineStep, h]

/-- The state after reset lists nothing that breaks the store invariant: each word is 0 (R210). -/
theorem reset_words (k : Fin 8) : State.reset.words.get k = 0 := by
  simp [State.reset, Vector.get]

end Sys2Proof.Machine
end

