-- ==== Sys2Proof/Laws/PerInstr.lean ====
section
/-! SUPPORT. Statements about every command as syntax, one lemma per constructor. -/

namespace Sys2Proof.Laws.EncodeMatchesRow

/-- The encoding of a command is a word its row of the opcode table covers (R65). -/
def Statement (i : Instr) : Prop := (tableRow i).covers (encode i) = true

theorem fixed_half (n : Operand) (c : Word) (h : c &&& 0xFFFF0000#32 = c) :
    ((c ||| n.setWidth 32) &&& 0xFFFF0000#32) = c := by
  have hm : ∀ j : Fin 32, j.val < 16 → (0xFFFF0000#32)[j.val] = false := by decide
  have : n.setWidth 32 &&& 0xFFFF0000#32 = 0#32 := by
    ext i hi
    by_cases h16 : i < 16
    · simpa using fun _ => hm ⟨i, hi⟩ h16
    · simp; intro hn; exact absurd (BitVec.lt_of_getLsbD hn) h16
  rw [BitVec.and_comm, BitVec.and_or_distrib_left, BitVec.and_comm _ c, h, BitVec.and_comm, this]
  simp

theorem construct (size : Operand) : Statement (.construct size) := by
  simp [Statement, TableRow.covers, tableRow, encode, fixed_half]
theorem get (index : Operand) : Statement (.get index) := by
  simp [Statement, TableRow.covers, tableRow, encode, fixed_half]
theorem set (index : Operand) : Statement (.set index) := by
  simp [Statement, TableRow.covers, tableRow, encode, fixed_half]
theorem swap (index : Operand) : Statement (.swap index) := by
  simp [Statement, TableRow.covers, tableRow, encode, fixed_half]
theorem clear : Statement .clear := by unfold Statement; decide
theorem dump : Statement .dump := by unfold Statement; decide

end Sys2Proof.Laws.EncodeMatchesRow
end

