-- ==== Sys2Proof/Laws/Run.lean ====
section
/-! SUPPORT. Runs of several steps and of several commands, one step or command at a time. -/

namespace Sys2Proof.Machine

theorem steps_zero (s : State) : steps 0 s = .next s := rfl

/-- A run that begins with a step that goes on. -/
theorem steps_succ {s t : State} (h : step s = .next t) (k : Nat) : steps (k + 1) s = steps k t := by
  simp [steps, h]

/-- A run is the host's run of the same machine. -/
theorem steps_eq_run : ∀ (k : Nat) (s : State), steps k s = Host.Core.run core k s
  | 0, _ => rfl
  | k + 1, s => by
    have ih := steps_eq_run k
    unfold steps
    cases h : step s with
    | next t =>
      simp only [Host.Core.run]
      rw [show core.step s = .next t from h]
      exact ih t
    | fault r =>
      simp only [Host.Core.run]
      rw [show core.step s = .fault r from h]
      rfl
    | refused r =>
      simp only [Host.Core.run]
      rw [show core.step s = .refused r from h]
      rfl

theorem execAll_nil (s : State) : execAll [] s = .next s := rfl

/-- Commands that begin with one that goes on. -/
theorem execAll_cons {i : Instr} {s t : State} (h : exec i s = .next t) (is : List Instr) :
    execAll (i :: is) s = execAll is t := by
  simp [execAll, h]

/-- Commands that go on begin with one that goes on. -/
theorem execAll_cons_inv {i : Instr} {is : List Instr} {s u : State} (h : execAll (i :: is) s = .next u) :
    ∃ t, exec i s = .next t ∧ execAll is t = .next u := by
  unfold execAll at h
  cases he : exec i s with
  | next t => rw [he] at h; exact ⟨t, rfl, h⟩
  | fault r => rw [he] at h; cases h
  | refused r => rw [he] at h; cases h

end Sys2Proof.Machine
end

