-- ==== Sys2Proof/Tests/Slice0.lean ====
section
/-! SUPPORT. Tests: the well-formedness smoke, decoding of words written out from 30_encoding.md, one step of each command
with the values of 95_test_vectors.md, and for each obligation with hypotheses a concrete state and operands that meet
them, at boundary values. -/

namespace Sys2Proof.Tests

open Sys2Proof Sys2Proof.Machine

/-! ### Helpers -/

/-- An IDLE instance with `WORD[0]`, `WORD[1]` and `WORD[7]` given. -/
def unit (size : BitVec 9) (w0 w1 w7 : Word) : State :=
  { State.reset with
    valid := true
    size := size
    words := #v[w0, w1, 0, 0, 0, 0, 0, w7] }

/-- The same while a grid is in progress, at an offset. -/
def rendering (size : BitVec 9) (w0 w1 w7 : Word) (i : BitVec 9) : State :=
  { unit size w0 w1 w7 with mode := .dumping, dumpI := i }

/-- The state a command leaves, if it goes on. -/
def after (i : Instr) (s : State) : Option State := nextState? (exec i s)

theorem goes_on {r : Result} (h : (nextState? r).isSome = true) : ∃ t, r = .next t := by
  cases r with
  | next t => exact ⟨t, rfl⟩
  | fault _ => cases h
  | refused _ => cases h

theorem goes_on_to {r : Result} {t : State} (h : nextState? r = some t) : r = .next t := by
  cases r with
  | next u => cases h; rfl
  | fault _ => cases h
  | refused _ => cases h

theorem no_power {n : Nat} (h : isPow2 n = false) : ¬ ∃ k, n = 2 ^ k := by
  rintro ⟨k, rfl⟩
  simp [isPow2, Nat.log2_two_pow] at h

/-! ### Well-formed command words: one ill-formed word for each check (R64, R69) -/

theorem test_wellFormed_get : CommandWord.wellFormed 0x20000004#32 = true := by decide
theorem test_illFormed_opcode_zero : CommandWord.opcodeKnown 0x00000000#32 = false := by decide
theorem test_illFormed_opcode_high : CommandWord.wellFormed 0xF00000FF#32 = false := by decide
theorem test_illFormed_reserved : CommandWord.reservedClear 0x20010004#32 = false := by decide
theorem test_illFormed_operand : CommandWord.operandAllowed 0x60008000#32 = false := by decide

/-! ### Decoding of words written out from R60 and R61: OPC 31:28, RSV 27:16, OPND 15:0 -/

theorem test_decode_construct : decode 0b00010000000000000000000100000000#32 = .legal (.construct 256) := by decide
theorem test_decode_get : decode 0b00100000000000001111111111111111#32 = .legal (.get 65535) := by decide
theorem test_decode_set : decode 0b00110000000000000000000011111111#32 = .legal (.set 255) := by decide
theorem test_decode_swap : decode 0b01000000000000000000000000000100#32 = .legal (.swap 4) := by decide
theorem test_decode_clear : decode 0b01010000000000000000000000000000#32 = .legal .clear := by decide
theorem test_decode_dump : decode 0b01100000000000000000000000000000#32 = .legal .dump := by decide
theorem test_decode_reserved_bit27 : decode 0x18000008#32 = .illegal .reservedNotZero := by decide
theorem test_decode_opcode7 : decode 0x70000000#32 = .illegal .opcode := by decide
theorem test_decode_clear_operand : decode 0x50000001#32 = .illegal .operandNotZero := by decide
theorem test_decodeTableWord : decodeTableWord 32 0x4000000A = some (.swap 10) := by decide
theorem test_withFetchWord :
    nextState? (step (State.reset.withFetchWord 32 0x10000008)) =
      (after (.construct 8) { State.reset with program := [0x10000008#32], pc := 1 }) := by decide

/-! ### One step of each command (95_test_vectors.md) -/

/-- V-IDX-11. -/
theorem test_index_200 : wordIndex 200 = 6 ∧ bitOffset 200 = 8 ∧ mask 200 = 0x100#32 := by decide
/-- V-CON-11. -/
theorem test_construct_replaces :
    (after (.construct 8) (unit 256 0 0 0x80000000#32)).map (fun t => (t.size, t.words, t.rspStatus, t.rspData)) =
      some (8, Vector.replicate 8 0, 0, 0) := by decide
/-- V-CON-6. -/
theorem test_construct_300 :
    (after (.construct 300) State.reset).map (fun t => (t.valid, t.rspStatus, t.rspData)) = some (false, 1, 0x12C) := by
  decide
/-- V-GET-11. -/
theorem test_get_255 :
    (after (.get 255) (unit 256 0 0 0x80000000#32)).map (fun t => (t.rspStatus, t.rspData)) = some (0, 0x80000000) := by
  decide
/-- V-GET-7. -/
theorem test_get_31_of_8 :
    (after (.get 31) (unit 8 0 0 0)).map (fun t => (t.rspStatus, t.rspData)) = some (3, 0x1F) := by decide
/-- V-SET-8. -/
theorem test_set_32 :
    (after (.set 32) (unit 64 0xFFFFFFFF#32 0 0)).map (fun t => (t.words, t.rspStatus, t.rspData)) =
      some (#v[0xFFFFFFFF#32, 1, 0, 0, 0, 0, 0, 0], 0, 0) := by decide
/-- V-SWAP-4. -/
theorem test_swap_63 :
    (after (.swap 63) (unit 64 0 0x80000000#32 0)).map (fun t => (t.words, t.rspStatus)) =
      some (Vector.replicate 8 0, 0) := by decide
/-- V-CLR-1. -/
theorem test_clear :
    (after .clear (unit 64 1 0x80000000#32 0)).map (fun t => (t.size, t.words, t.rspStatus, t.rspData)) =
      some (64, Vector.replicate 8 0, 0, 0) := by decide
/-- V-DMP-4, its second row. -/
theorem test_dump_row :
    (nextState? (step (rendering 8 0xFF#32 0 0 6))).map (fun t => (t.textLog, t.dumpI, t.mode)) =
      some (ascii "  6 1 1 0 0 0 0\n", 12, .dumping) := by decide
/-- V-DMP-4, its response. -/
theorem test_dump_done :
    (nextState? (step (rendering 8 0xFF#32 0 0 12))).map (fun t => (t.rspStatus, t.rspData, t.mode)) =
      some (0, 2, .idle) := by decide
/-- V-DMP-12, the step of the reset. -/
theorem test_reset_in_grid :
    nextState? (step { rendering 128 1 1 0 42 with resetIn := [0] }) = some State.reset := by decide
/-- R67, R69. -/
theorem test_assembler :
    assemble (ascii "construct 0x8 # size\n\nset 255\nclear\n") = some [0x10000008#32, 0x300000FF#32, 0x50000000#32] := by
  decide
/-- R67: an operand above 65535. -/
theorem test_assembler_range : assemble (ascii "get 65536") = none := by decide

/-! ### Witnesses of hypotheses -/

theorem witness_EncodeOfDecodeIsTheWord : ∃ w i, decode w = .legal i := ⟨0x2000FFFF#32, .get 65535, by decide⟩

/-- The lines `get 0xfF # a`, `# b` and `clear`, and the numeral 65536. -/
theorem witness_AssemblerReadsEveryCommand :
    IsLine (some (.get 255)) (ascii "get 0xfF # a") ∧ IsLine none (ascii "# b") ∧ IsLine (some .clear) (ascii "clear") ∧
    IsNumeral 65536 (dec 65536) ∧ 65535 < 65536 :=
  ⟨⟨ascii "get 0xfF", ascii " # a",
      ⟨ascii "0xfF", .inr ⟨[(false, 15), (true, 15)], by decide, by decide, by decide, by decide⟩, by decide⟩,
      ⟨1, .inr ⟨ascii " a", by decide, by decide⟩⟩, by decide⟩,
    ⟨0, .inr ⟨ascii " b", by decide, by decide⟩⟩, ⟨ascii "clear", [], rfl, ⟨0, .inl rfl⟩, by decide⟩, .inl rfl, by decide⟩

/-- One word for each clause of the pseudocode, at the ends of the ranges. -/
theorem witness_DecodeReadsFieldsAndTable :
    ((0x18000008#32).toNat / 2 ^ 16 % 2 ^ 12 ≠ 0) ∧ ((0x1000FFFF#32).toNat / 2 ^ 28 = 1) ∧
    ((0x20000000#32).toNat / 2 ^ 28 = 2) ∧ ((0x3000FFFF#32).toNat / 2 ^ 28 = 3) ∧
    ((0x40000000#32).toNat / 2 ^ 28 = 4) ∧ ((0x50000000#32).toNat / 2 ^ 28 = 5) ∧
    ((0x60000001#32).toNat / 2 ^ 28 = 6) ∧ ((0x0000FFFF#32).toNat / 2 ^ 28 = 0) ∧
    (7 ≤ (0x70000000#32).toNat / 2 ^ 28) ∧ ((0x70000000#32).toNat / 2 ^ 16 % 2 ^ 12 = 0) := by decide

theorem witness_IllegalWordIsRefused : ∃ why, decode 0x50000001#32 = .illegal why := ⟨.operandNotZero, by decide⟩

theorem witness_IndexDatapathSelectsOneBit :
    (255#16).toNat < 256 ∧ (255#16).toNat % 32 = 31 ∧ 31 < 32 := by decide

theorem witness_PowerOfTwoTestAndLogarithm : log2? 256 = some 8 ∧ log2? 1 = some 0 ∧ (1 : Nat) = 2 ^ 0 := by decide

/-- A dumping state whose step goes on, for each `HeldWhileDumping`. -/
theorem witness_HeldWhileDumping :
    (rendering 1 1 0 0 0).mode = .dumping ∧ ∃ t, step (rendering 1 1 0 0 0) = .next t :=
  ⟨rfl, goes_on (by decide)⟩

/-- Sizes at the ends of each clause: 0 and 65535 are no powers of two, 512 and 32768 are too large, 1 and 256 legal. -/
theorem witness_ConstructFollowsItsRule :
    State.reset.mode = .idle ∧ (¬ ∃ k, (0#16).toNat = 2 ^ k) ∧ (¬ ∃ k, (65535#16).toNat = 2 ^ k) ∧
    (∃ k, (512#16).toNat = 2 ^ k) ∧ 256 < (512#16).toNat ∧ (∃ k, (32768#16).toNat = 2 ^ k) ∧
    (∃ k, (1#16).toNat = 2 ^ k) ∧ (∃ k, (256#16).toNat = 2 ^ k) ∧ (256#16).toNat ≤ 256 :=
  ⟨rfl, no_power (by decide), no_power (by decide), ⟨9, by decide⟩, by decide, ⟨15, by decide⟩, ⟨0, by decide⟩,
    ⟨8, by decide⟩, by decide⟩

theorem witness_ConstructSucceedsExactlyOnLegalSizes :
    State.reset.mode = .idle ∧ (after (.construct 256) State.reset).map (·.rspStatus) = some 0 ∧
    (after (.construct 3) State.reset).map (·.rspStatus) = some 1 := by decide

theorem witness_ReconstructionEqualsResetThenConstruct :
    (unit 256 1 0 1).mode = .idle ∧ (unit 256 1 0 1).valid = true ∧ (8#16).toNat ∈ legalSizes := by decide

/-- For GET, SET, SWAP: no instance; the first refused index, SIZE; the last accepted one, SIZE - 1, at 256 and 1. -/
theorem witness_bit_access_rules :
    (State.reset.mode = .idle ∧ State.reset.valid = false) ∧
    ((unit 256 0 0 1).mode = .idle ∧ (unit 256 0 0 1).valid = true ∧ (unit 256 0 0 1).size.toNat ≤ (256#16).toNat) ∧
    ((255#16).toNat < (unit 256 0 0 1).size.toNat ∧ (unit 256 0 0 1).size.toNat ∈ legalSizes) ∧
    ((0#16).toNat < (unit 1 1 0 0).size.toNat ∧ (unit 1 1 0 0).size.toNat ∈ legalSizes) := by decide

theorem witness_GetAnswersTheMaskedBit :
    (unit 256 0 0 0x80000000#32).mode = .idle ∧ (unit 256 0 0 0x80000000#32).valid = true ∧
    (255#16).toNat < (unit 256 0 0 0x80000000#32).size.toNat ∧
    (unit 256 0 0 0x80000000#32).size.toNat ∈ legalSizes := by decide

theorem witness_GetIsAPureRead :
    (unit 32 1 0 0).mode = .idle ∧ ((unit 32 1 0 0).valid = true → (unit 32 1 0 0).size.toNat ∈ legalSizes) := by decide

/-- Two states that differ in every other bit of the word. -/
theorem witness_GetSeesOnlyTheAddressedBit :
    (unit 32 0x10#32 0 0).size = (unit 32 0xFFFFFFFF#32 0 0).size ∧
    (unit 32 0x10#32 0 0).bitRead? (4#16).toNat = (unit 32 0xFFFFFFFF#32 0 0).bitRead? (4#16).toNat ∧
    (∃ t, exec (.get 4) (unit 32 0x10#32 0 0) = .next t) ∧ ∃ t, exec (.get 4) (unit 32 0xFFFFFFFF#32 0 0) = .next t :=
  ⟨by decide, by decide, goes_on (by decide), goes_on (by decide)⟩

theorem witness_SetWritesOneBit :
    (unit 64 0 0 0).mode = .idle ∧ (unit 64 0 0 0).valid = true ∧ (63#16).toNat < (unit 64 0 0 0).size.toNat ∧
    (unit 64 0 0 0).size.toNat ∈ legalSizes ∧ 31 ≠ (63#16).toNat := by decide

theorem witness_SetIsIdempotent :
    (unit 8 0x10#32 0 0).mode = .idle ∧ (unit 8 0x10#32 0 0).valid = true ∧
    (4#16).toNat < (unit 8 0x10#32 0 0).size.toNat ∧ (unit 8 0x10#32 0 0).size.toNat ∈ legalSizes := by decide

theorem witness_SwapInvertsOneBit :
    (unit 32 0xFFFFFFFF#32 0 0).mode = .idle ∧ (unit 32 0xFFFFFFFF#32 0 0).valid = true ∧
    (31#16).toNat < (unit 32 0xFFFFFFFF#32 0 0).size.toNat ∧ (unit 32 0xFFFFFFFF#32 0 0).size.toNat ∈ legalSizes := by
  decide

/-- Both clauses: an accepted index and the first refused one. -/
theorem witness_SwapTwiceRestoresTheStore :
    (unit 8 0xA5#32 0 0).mode = .idle ∧ (unit 8 0xA5#32 0 0).valid = true ∧
    (unit 8 0xA5#32 0 0).size.toNat ∈ legalSizes ∧ (2#16).toNat < (unit 8 0xA5#32 0 0).size.toNat ∧
    (unit 8 0xA5#32 0 0).size.toNat ≤ (8#16).toNat := by decide

/-- The first two clauses at SIZE = 1, the third at 64. -/
theorem witness_SetAndSwapMeetOnlyInTheirBit :
    ((unit 1 1 0 0).mode = .idle ∧ (unit 1 1 0 0).valid = true ∧ (unit 1 1 0 0).size.toNat ∈ legalSizes ∧
      (0#16).toNat < (unit 1 1 0 0).size.toNat) ∧
    (unit 64 0 0 0).mode = .idle ∧ (unit 64 0 0 0).valid = true ∧ (unit 64 0 0 0).size.toNat ∈ legalSizes ∧
    (63#16).toNat < (unit 64 0 0 0).size.toNat ∧ (32#16).toNat < (unit 64 0 0 0).size.toNat ∧ 63#16 ≠ 32#16 := by decide

/-- CONSTRUCT 8, then SET 1 and GET 7, with N = 4 and M = 7. -/
theorem witness_RoundTripAfterConstructOrClear :
    ∃ t u, exec (.construct 8) State.reset = .next t ∧ t.rspStatus = 0 ∧
      (∀ c ∈ [Instr.set 1, .get 7], (∃ x, c = .get x) ∨ ∃ x, (c = .set x ∨ c = .swap x) ∧ x ≠ 7#16) ∧
      execAll [.set 1, .get 7] t = .next u ∧ (4#16).toNat < u.size.toNat ∧ (7#16).toNat < u.size.toNat ∧
      4#16 ≠ 7#16 ∧ (State.reset.valid = true → State.reset.size.toNat ∈ legalSizes) := by
  let t := (after (.construct 8) State.reset).getD State.reset
  refine ⟨t, (nextState? (execAll [.set 1, .get 7] t)).getD t, goes_on_to (by decide), by decide, ?_,
    goes_on_to (by decide), by decide, by decide, by decide, by decide⟩
  intro c hc
  rcases List.mem_cons.1 hc with rfl | hc
  · exact .inr ⟨1, .inl rfl, by decide⟩
  · exact .inl ⟨7, List.mem_singleton.1 hc⟩

theorem witness_ClearFollowsItsRule :
    ((0x50000001#32).toNat / 2 ^ 28 = 5 ∧ (0x50000001#32).toNat % 2 ^ 16 ≠ 0) ∧
    (State.reset.mode = .idle ∧ State.reset.valid = false) ∧
    ((unit 64 1 1 0).mode = .idle ∧ (unit 64 1 1 0).valid = true) := by decide

/-- All rows of size 64, and any number at size 1. -/
theorem witness_ClearMakesEveryBitZero :
    (unit 64 1 0x80000000#32 0).mode = .idle ∧ (unit 64 1 0x80000000#32 0).valid = true ∧
    (unit 64 1 0x80000000#32 0).size.toNat ∈ legalSizes ∧
    (63#16).toNat < (unit 64 1 0x80000000#32 0).size.toNat ∧ 6 ≤ (unit 64 1 0x80000000#32 0).rows ∧
    (unit 64 1 0x80000000#32 0).resetIn = [] ∧ (unit 1 1 0 0).size.toNat = 1 := by decide

theorem witness_ClearEqualsConstructOfTheSameSize :
    (unit 256 1 0 1).mode = .idle ∧ (unit 256 1 0 1).valid = true ∧ (unit 256 1 0 1).size.toNat ∈ legalSizes := by decide

theorem witness_DumpFollowsItsRule :
    ((0x60008000#32).toNat / 2 ^ 28 = 6 ∧ (0x60008000#32).toNat % 2 ^ 16 ≠ 0) ∧
    (State.reset.mode = .idle ∧ State.reset.valid = false) ∧
    ((unit 1 1 0 0).mode = .idle ∧ (unit 1 1 0 0).valid = true) ∧
    (rendering 8 1 0 0 12).mode = .dumping ∧ (nextState? (unitStep (rendering 8 1 0 0 12))).isSome = true := by decide

/-- Offsets at the ends of each width of label. -/
theorem witness_LineHasTheByteFormat : ∀ i ∈ [0, 9, 10, 99, 100, 240, 999], i < 1000 := by decide

theorem witness_RendererCompletesAndAnswers :
    (rendering 2 3 0 0 2).mode = .dumping ∧ (rendering 2 3 0 0 2).size.toNat ∈ legalSizes ∧
    2 ≤ (rendering 2 3 0 0 2).size.toNat ∧ (rendering 2 3 0 0 2).size.toNat ≤ (rendering 2 3 0 0 2).dumpI.toNat := by
  decide

/-- The last row of a full instance of size 8, which runs past SIZE, is a legal state. -/
theorem rendering_legal : Inv (rendering 8 0xFF#32 0 0 6) where
  legalSize := by decide
  noInstance := by decide
  storeZero := by
    have h : ∀ k, k < 8 → ∀ b, b < 32 → 8 ≤ 32 * k + b →
        (rendering 8 0xFF#32 0 0 6).bitRead? (32 * k + b) = some false := by decide
    intro p h1 h2
    have hp : 8 ≤ p := h1
    have := h (p / 32) (by omega) (p % 32) (by omega) (by omega)
    rwa [show 32 * (p / 32) + p % 32 = p by omega] at this
  idleOffset := by decide
  gridOffset := fun _ => .inr ⟨0, by decide⟩
  statusProduced := by decide
  logProduced := by decide
  position := by decide

theorem witness_RendererEmitsOneRow :
    Inv (rendering 8 0xFF#32 0 0 6) ∧ (rendering 8 0xFF#32 0 0 6).mode = .dumping ∧
    (rendering 8 0xFF#32 0 0 6).dumpI.toNat < (rendering 8 0xFF#32 0 0 6).size.toNat ∧
    5 < 2 * Nat.log2 (rendering 8 0xFF#32 0 0 6).size.toNat :=
  ⟨rendering_legal, by decide⟩

theorem witness_RendererReadsZeroPastSize :
    Inv (rendering 8 0xFF#32 0 0 6) ∧ (rendering 8 0xFF#32 0 0 6).mode = .dumping ∧
    (rendering 8 0xFF#32 0 0 6).dumpI.toNat < (rendering 8 0xFF#32 0 0 6).size.toNat ∧
    5 < (rendering 8 0xFF#32 0 0 6).slide ∧
    (rendering 8 0xFF#32 0 0 6).size.toNat ≤ (rendering 8 0xFF#32 0 0 6).dumpI.toNat + 5 :=
  ⟨rendering_legal, by decide⟩

theorem witness_DumpRendersTheWholeGrid :
    (unit 2 3 0 0).mode = .idle ∧ (unit 2 3 0 0).valid = true ∧ (unit 2 3 0 0).size.toNat ∈ legalSizes ∧
    2 ≤ (unit 2 3 0 0).size.toNat ∧ (unit 2 3 0 0).resetIn = [] ∧ (unit 256 3 0 0).size.toNat ∈ legalSizes := by decide

theorem witness_DumpAtSizeOneNeverEnds :
    (unit 1 1 0 0).mode = .idle ∧ (unit 1 1 0 0).valid = true ∧ (unit 1 1 0 0).size.toNat = 1 ∧
    (unit 1 1 0 0).resetIn = [] := by decide

theorem witness_DumpingHoldsCommandsAndStore :
    (rendering 8 0xFF#32 0 0 6).mode = .dumping ∧ ∃ t, unitStep (rendering 8 0xFF#32 0 0 6) = .next t :=
  ⟨rfl, goes_on (by decide)⟩

/-- One word for each status a check reports, and one with no failure. -/
theorem witness_FirstFailingCheckIsReported :
    (unit 8 0 0 0).mode = .idle ∧ firstFailure 0x20010004#32 (unit 8 0 0 0) = some (5, 0x20010004) ∧
    firstFailure 0x2000012C#32 State.reset = some (4, 0x12C) ∧ firstFailure 0x1000012C#32 State.reset = some (1, 0x12C) ∧
    firstFailure 0x10008000#32 State.reset = some (2, 0x8000) ∧ firstFailure 0x20000008#32 (unit 8 0 0 0) = some (3, 8) ∧
    firstFailure 0x20000007#32 (unit 8 0 0 0) = none ∧
    (nextState? (acceptWord 0x20000007#32 (unit 8 0 0 0))).isSome = true := by decide

/-- GET 8 of a unit of size 8. -/
theorem witness_ErrorsChangeOnlyTheResponse :
    ∃ t, unitStep { unit 8 1 0 0 with program := [0x20000008#32] } = .next t ∧
      t.rspLog = ({ unit 8 1 0 0 with program := [0x20000008#32] } : State).rspLog ++ [⟨3, 8⟩] ∧
      (⟨3, 8⟩ : Response).status ≠ 0 :=
  ⟨(nextState? (unitStep { unit 8 1 0 0 with program := [0x20000008#32] })).getD State.reset, goes_on_to (by decide),
    by decide, by decide⟩

/-- The same error, then GET 0. -/
theorem witness_ErrorsAreNotSticky :
    ∃ t v, (unit 8 1 0 0).mode = .idle ∧ acceptWord 0x20000008#32 (unit 8 1 0 0) = .next t ∧
      t.rspLog = (unit 8 1 0 0).rspLog ++ [⟨3, 8⟩] ∧ (⟨3, 8⟩ : Response).status ≠ 0 ∧
      exec (.get 0) (unit 8 1 0 0) = .next v :=
  ⟨(nextState? (acceptWord 0x20000008#32 (unit 8 1 0 0))).getD State.reset,
    (after (.get 0) (unit 8 1 0 0)).getD State.reset, rfl, goes_on_to (by decide), by decide, by decide,
    goes_on_to (by decide)⟩

/-- Each command goes on from an IDLE state, and so does a completion step. -/
theorem witness_StatusesOfEachCommand :
    (∀ i ∈ [Instr.construct 8, .get 7, .set 7, .swap 8, .clear, .dump], (after i (unit 8 1 0 0)).isSome = true) ∧
    (unit 8 1 0 0).mode = .idle ∧ (rendering 8 1 0 0 12).mode = .dumping ∧
    (nextState? (unitStep (rendering 8 1 0 0 12))).isSome = true ∧
    decode 0x00000000#32 = .illegal .opcode := by decide

/-- With a reset request one step off, the nearest that is not due: a command, and an illegal word. -/
theorem witness_StepRunsThePresentedCommand :
    let s : State := { unit 8 1 0 0 with program := [0#32, 0x30000007#32], pc := 1, resetIn := [1] }
    s.mode = .idle ∧ s.resetIn.head? ≠ some 0 ∧ s.program[s.pc]? = some 0x30000007#32 ∧
    decode 0x30000007#32 = .legal (.set 7) ∧ ({ s with pc := 0 } : State).program[0]? = some 0#32 ∧
    decode 0#32 = .illegal .opcode := by decide

/-- A command that completes, and a DUMP; each the last of its list. -/
theorem witness_AcceptanceIsOneStepInOrder :
    (∃ t, unitStep { unit 8 1 0 0 with program := [0x30000007#32] } = .next t ∧ t.mode = .idle) ∧
    ∃ t, unitStep { unit 8 1 0 0 with program := [0x60000000#32] } = .next t ∧ t.mode = .dumping :=
  ⟨⟨(nextState? (unitStep { unit 8 1 0 0 with program := [0x30000007#32] })).getD State.reset, goes_on_to (by decide),
      by decide⟩,
    ⟨(nextState? (unitStep { unit 8 1 0 0 with program := [0x60000000#32] })).getD State.reset, goes_on_to (by decide),
      by decide⟩⟩

theorem witness_ExecWaitsWhileDumping : (rendering 1 1 0 0 0).mode = .dumping := rfl

theorem witness_FinishedRunStays :
    ({ unit 8 1 0 0 with program := [0#32], pc := 1 } : State).finished ∧
    ({ unit 8 1 0 0 with program := [0#32], pc := 1 } : State).resetIn = [] :=
  ⟨⟨by decide, rfl⟩, rfl⟩

theorem witness_LogsOnlyGrow :
    (∃ t, step (rendering 8 1 0 0 12) = .next t) ∧
    (unit 8 1 0 0).mode = .idle ∧ ∃ t, step (unit 8 1 0 0) = .next t :=
  ⟨goes_on (by decide), rfl, goes_on (by decide)⟩

/-- CONSTRUCT 64 over an instance of size 8, which changes SIZE and the store. -/
theorem witness_writer_rules :
    ∃ t, unitStep { unit 8 1 0 0 with program := [0x10000040#32] } = .next t ∧ t.size ≠ (unit 8 1 0 0).size ∧
      t.words ≠ (unit 8 1 0 0).words :=
  ⟨(nextState? (unitStep { unit 8 1 0 0 with program := [0x10000040#32] })).getD State.reset, goes_on_to (by decide),
    by decide, by decide⟩

/-- DUMP over a resting DUMP_I of 12, and a completion step. -/
theorem witness_OnlyDumpMovesTheRenderer :
    (∃ t, unitStep { unit 8 1 0 0 with program := [0x60000000#32], dumpI := 12 } = .next t ∧ t.dumpI ≠ 12 ∧
      t.mode = .dumping) ∧
    ∃ t, unitStep (rendering 8 1 0 0 12) = .next t ∧ t.mode = .idle :=
  ⟨⟨(nextState? (unitStep { unit 8 1 0 0 with program := [0x60000000#32], dumpI := 12 })).getD State.reset,
      goes_on_to (by decide), by decide, by decide⟩,
    ⟨(nextState? (unitStep (rendering 8 1 0 0 12))).getD State.reset, goes_on_to (by decide), by decide⟩⟩

theorem witness_ResetTakesTheStepWhenDue :
    ({ rendering 8 1 0 0 6 with resetIn := [0, 5] } : State).resetIn = 0 :: [5] := rfl

/-- After no row, after all rows of size 8, and after any number at size 1. -/
theorem witness_ResetCutsTheGridAtALine :
    (unit 8 1 0 0).mode = .idle ∧ (unit 8 1 0 0).valid = true ∧ (unit 8 1 0 0).size.toNat ∈ legalSizes ∧
    0 ≤ (unit 8 1 0 0).rows ∧ 2 ≤ (unit 8 1 0 0).rows ∧ (unit 1 1 0 0).size.toNat = 1 ∧
    ({ unit 8 1 0 0 with resetIn := [2] } : State).resetIn = [2] := by decide

theorem witness_NothingWorksBeforeConstruct :
    State.reset.mode = .idle ∧ State.reset.valid = false ∧
    ∀ c ∈ [Instr.get 0, .set 0, .swap 0, .clear, .dump], ∀ S, c ≠ .construct S := by
  refine ⟨rfl, rfl, ?_⟩
  intro c hc S h
  subst h
  revert hc
  simp

/-- A state with bits set below SIZE meets R25 and steps: SET 7, after which the words from 1 on and the bits from 8 on
are the clauses' cases. -/
theorem witness_StepKeepsStoreInvariant :
    ∃ t, StoreInv { rendering 8 0xFF#32 0 0 6 with mode := .idle, program := [0x30000007#32] } ∧
      step { rendering 8 0xFF#32 0 0 6 with mode := .idle, program := [0x30000007#32] } = .next t ∧ t.valid = true ∧
      Config.activeWords t.size.toNat ≤ 1 ∧ t.size.toNat < 32 :=
  ⟨(nextState? (step { rendering 8 0xFF#32 0 0 6 with mode := .idle, program := [0x30000007#32] })).getD State.reset,
    ⟨fun _ => rendering_legal.storeZero, fun h => by cases h⟩, goes_on_to (by decide), by decide, by decide, by decide⟩

theorem witness_StepKeepsLegalState :
    Inv (rendering 8 0xFF#32 0 0 6) ∧ ∃ t, step (rendering 8 0xFF#32 0 0 6) = .next t :=
  ⟨rendering_legal, goes_on (by decide)⟩

theorem witness_LegalStateNeverStops : Inv (rendering 8 0xFF#32 0 0 6) := rendering_legal

end Sys2Proof.Tests
end

/-! The power-of-two test and its logarithm on every natural (R14). -/
section
namespace Sys2Proof.Machine

@[simp] theorem isPow2_two_pow (k : Nat) : isPow2 (2 ^ k) = true :=
  (isPow2_iff _).mpr (by rw [Nat.log2_two_pow])

@[simp] theorem log2?_two_pow (k : Nat) : log2? (2 ^ k) = some k := by
  simp [log2?, Nat.log2_two_pow]

theorem isPow2_iff_exists_two_pow (n : Nat) : isPow2 n = true ↔ ∃ k, n = 2 ^ k := by
  constructor
  · intro h
    exact ⟨Nat.log2 n, (isPow2_iff n).mp h⟩
  · rintro ⟨k, rfl⟩
    exact isPow2_two_pow k

theorem isPow2_zero : isPow2 0 = false := by decide

theorem log2?_eq_some_iff (n k : Nat) : log2? n = some k ↔ n = 2 ^ k := by
  constructor
  · intro h
    obtain ⟨hpow, rfl⟩ := log2?_eq_some h
    exact (isPow2_iff n).mp hpow
  · rintro rfl
    exact log2?_two_pow k

/-- Settles O8: `isPow2` compares `n` with the power its own binary logarithm gives, and that logarithm takes
`2 ^ k` back to `k`. -/
theorem powerOfTwoTestAndLogarithm : Obligations.PowerOfTwoTestAndLogarithm := fun n =>
  ⟨isPow2_iff_exists_two_pow n, isPow2_zero, log2?_eq_some_iff n⟩

end Sys2Proof.Machine
end

/-! The bits that a word write of SET or SWAP leaves (R42, R102), and the one word of DUMP (R61). -/
section
namespace Sys2Proof.Machine

/-- The mask has no bit but the addressed one (R102). -/
theorem mask_getLsbD_of_ne {n b : Nat} (hb : b ≠ n % 32) : (mask n).getLsbD b = false := by
  rw [mask_eq, ← BitVec.twoPow_eq, BitVec.getLsbD_twoPow]
  simp [Ne.symm hb]

/-- A write to the word of bit `n` that agrees with the old word at every other offset leaves every other position. -/
theorem bitRead?_setWord_of_ne {s : State} {k : Fin 8} {v : Word} {n p : Nat} (hk : k.val = n / 32)
    (hv : ∀ b, b ≠ n % 32 → v.getLsbD b = (s.words.get k).getLsbD b) (hp : p ≠ n) :
    (s.setWord k v).bitRead? p = s.bitRead? p := by
  by_cases hword : k.val = p / 32
  · have hoffset : p % 32 ≠ n % 32 := by omega
    have hold : s.word? (p / 32) = some (s.words.get k) := by rw [← hword]; exact word?_of_lt s k.isLt
    simp [State.bitRead?, wordIndex_eq, bitOffset_eq, hold, hword ▸ k.isLt, hword, hv _ hoffset]
  · simp [State.bitRead?, wordIndex_eq, hword]

/-- The store in terms of its bits: position `32 * k + b` is bit `b` of word `k` (R42). -/
theorem bitRead?_eq_getLsbD (s : State) (k : Fin 8) {b : Nat} (hb : b < 32) :
    s.bitRead? (32 * k.val + b) = some ((s.words.get k).getLsbD b) := by
  have hword : (32 * k.val + b) / 32 = k.val := by omega
  have hoffset : (32 * k.val + b) % 32 = b := by omega
  simp [State.bitRead?, wordIndex_eq, bitOffset_eq, hword, hoffset, word?_of_lt s k.isLt]

theorem reservedField_toNat (w : Word) : (reservedField w).toNat = w.toNat / 2 ^ 16 % 2 ^ 12 := by
  rw [reservedField, BitVec.extractLsb'_toNat, Nat.shiftRight_eq_div_pow]

theorem opcodeField_toNat (w : Word) : (opcodeField w).toNat = w.toNat / 2 ^ 28 := by
  rw [opcodeField, BitVec.extractLsb'_toNat, Nat.shiftRight_eq_div_pow]
  have := w.isLt
  omega

theorem operandField_toNat (w : Word) : (operandField w).toNat = w.toNat % 2 ^ 16 := by
  rw [operandField, BitVec.extractLsb'_toNat, Nat.shiftRight_zero]

/-- DUMP has one command word (R60, R61). -/
theorem decode_eq_dump {w : Word} (h : decode w = .legal .dump) : w = 0x60000000#32 := by
  unfold decode at h
  split at h
  case isTrue => cases h
  case isFalse hrsv =>
    split at h
    case h_5 => split at h <;> cases h
    case h_6 hopc =>
      split at h
      case isTrue hopnd =>
        have hrsv' : (reservedField w).toNat = 0 := congrArg BitVec.toNat (not_not.1 hrsv)
        have hopnd' : (operandField w).toNat = 0 := congrArg BitVec.toNat hopnd
        rw [reservedField_toNat] at hrsv'
        rw [operandField_toNat] at hopnd'
        rw [opcodeField_toNat] at hopc
        apply BitVec.eq_of_toNat_eq
        rw [BitVec.toNat_ofNat]
        omega
      case isFalse => cases h
    all_goals cases h

end Sys2Proof.Machine
end

/-! What a step can do, said once: an accepted word (R64, R189), a step of the renderer (R156, R157), a step of the
unit (R155, R220). -/
section
namespace Sys2Proof.Machine

/-- The legal sizes are what the size check lets through (R14, R21, R81). -/
theorem legalSizes_of_isPow2 {n : Nat} (hpow : isPow2 n = true) (hle : n ≤ 256) : n ∈ legalSizes := by
  obtain ⟨k, rfl⟩ := (isPow2_iff_exists_two_pow n).1 hpow
  have hk : k < 9 := (Nat.pow_lt_pow_iff_right (by decide : 1 < 2)).1 (by omega : 2 ^ k < 2 ^ 9)
  exact (by decide : ∀ j < 9, 2 ^ j ∈ legalSizes) k hk

/-- What an accepted word leaves of the state `s`, whose host has already moved on. -/
inductive Accepted (w : Word) (s : State) : State → Prop
  /-- An error of any command, an illegal word, or an accepted GET: a response and nothing else (R104, R183). -/
  | answer (st : Status) (d : Word) : Accepted w s (s.respond st d)
  /-- R84. -/
  | construct (S : Operand) (hw : decode w = .legal (.construct S)) (hlegal : S.toNat ∈ legalSizes) :
      Accepted w s ((s.setInstance (S.setWidth 9)).zeroWords.respond .ok 0)
  /-- SET and SWAP write the word of their bit, and leave every other bit (R110, R120). -/
  | write (i : Instr) (N : Operand) (v : Word) (hw : decode w = .legal i) (hi : i = .set N ∨ i = .swap N)
      (hvalid : s.valid = true) (hN : N.toNat < s.size.toNat)
      (hframe : ∀ p, p ≠ N.toNat → (s.setWord (wordIndex N.toNat) v).bitRead? p = s.bitRead? p) :
      Accepted w s ((s.setWord (wordIndex N.toNat) v).respond .ok 0)
  /-- R140. -/
  | clear (hw : decode w = .legal .clear) (hvalid : s.valid = true) : Accepted w s (s.zeroWords.respond .ok 0)
  /-- R154. -/
  | dump (hw : decode w = .legal .dump) (hvalid : s.valid = true) :
      Accepted w s ((s.setMode .dumping).setDumpI 0)

/-- An accepted index access answers an error, or takes its effect on the word of an index below SIZE (R103). -/
theorem Accepted.of_withIndexedWord {w : Word} {N : Operand} {s t : State} {effect : Word → State}
    (h : withIndexedWord N s effect = .next t)
    (heffect : ∀ k : Fin 8, s.valid = true → N.toNat < s.size.toNat → k.val = N.toNat / 32 →
      Accepted w s (effect (s.words.get k))) : Accepted w s t := by
  rcases withIndexedWord_cases N s effect with ⟨_, hr⟩ | ⟨_, _, hr⟩ | ⟨hv, hN, k, hk, hr⟩ | ⟨_, _, _, hr⟩ <;>
    rw [hr] at h <;> cases h
  · exact .answer ..
  · exact .answer ..
  · exact heffect k hv hN hk

/-- The write of SET and SWAP: the mask, joined in by an operation that a 0 bit of it leaves alone. -/
theorem Accepted.of_mask {w : Word} {i : Instr} {N : Operand} {s : State} {k : Fin 8} {v : Word}
    (hw : decode w = .legal i) (hi : i = .set N ∨ i = .swap N)
    (hvalid : s.valid = true) (hN : N.toNat < s.size.toNat) (hk : k.val = N.toNat / 32)
    (hv : ∀ b, (mask N.toNat).getLsbD b = false → v.getLsbD b = (s.words.get k).getLsbD b) :
    Accepted w s ((s.setWord (wordIndex N.toNat) v).respond .ok 0) :=
  .write i N v hw hi hvalid hN fun p hp => by
    rw [wordIndex_eq, ← hk]
    exact bitRead?_setWord_of_ne hk (fun b hb => hv b (mask_getLsbD_of_ne hb)) hp

theorem acceptWord_legal {w : Word} {i : Instr} (h : decode w = .legal i) (s : State) :
    acceptWord w s = exec i s := by
  simp [acceptWord, h]

theorem acceptWord_illegal {w : Word} {why : IllegalReason} (h : decode w = .illegal why) (s : State) :
    acceptWord w s = .next (s.answered 5 w) := by
  simp [acceptWord, h, respond_eq_answered, Status.code]

/-- Everything an accepted word can do, where it goes on. -/
theorem accepted_of_acceptWord {w : Word} {s t : State} (hidle : s.mode = .idle) (h : acceptWord w s = .next t) :
    Accepted w s t := by
  rcases acceptWord_cases w s with ⟨i, hw, hr⟩ | ⟨_, _, hr⟩ <;> rw [hr] at h
  · cases i with
    | construct S =>
      rw [exec, execConstruct, whenIdle_idle hidle] at h
      rcases checkSize_cases S with ⟨_, hc⟩ | ⟨_, _, hc⟩ | ⟨hpow, hle, hc⟩ <;> rw [hc] at h <;> cases h
      · exact .answer ..
      · exact .answer ..
      · exact .construct S hw (legalSizes_of_isPow2 hpow hle)
    | get N =>
      rw [exec, execGet, whenIdle_idle hidle] at h
      exact .of_withIndexedWord h fun _ _ _ _ => .answer ..
    | set N =>
      rw [exec, execSet, whenIdle_idle hidle] at h
      exact .of_withIndexedWord h fun k hv hN hk =>
        .of_mask hw (.inl rfl) hv hN hk fun b hb => by simp [BitVec.getLsbD_or, hb]
    | swap N =>
      rw [exec, execSwap, whenIdle_idle hidle] at h
      exact .of_withIndexedWord h fun k hv hN hk =>
        .of_mask hw (.inr rfl) hv hN hk fun b hb => by simp [BitVec.getLsbD_xor, hb]
    | clear =>
      rw [exec, execClear, whenIdle_idle hidle] at h
      cases hv : s.valid with
      | false => rw [whenConstructed_invalid hv] at h; cases h; exact .answer ..
      | true => rw [whenConstructed_valid hv] at h; cases h; exact .clear hw hv
    | dump =>
      rw [exec, execDump, whenIdle_idle hidle] at h
      cases hv : s.valid with
      | false => rw [whenConstructed_invalid hv] at h; cases h; exact .answer ..
      | true => rw [whenConstructed_valid hv] at h; cases h; exact .dump hw hv
  · cases h; exact .answer ..

/-- What a step of the renderer leaves. -/
inductive Rendered (s : State) : State → Prop
  /-- R156. -/
  | row (text : List Byte) (hlt : s.dumpI.toNat < s.size.toNat) :
      Rendered s ((s.emit text).setDumpI (BitVec.ofNat 9 (s.dumpI.toNat + s.slide)))
  /-- R157. -/
  | done (d : Word) (hge : s.size.toNat ≤ s.dumpI.toNat) (hslide : s.slide ≠ 0) :
      Rendered s ((s.setMode .idle).respond .ok d)

/-- Everything a renderer step can do, where it goes on. -/
theorem rendered_of_renderStep {s t : State} (h : renderStep s = .next t) : Rendered s t := by
  rcases renderStep_cases s with ⟨bits, _, hlt, _, hr⟩ | ⟨_, hge, hslide, hr⟩ | ⟨f, hr⟩ <;> rw [hr] at h <;> cases h
  · exact .row _ hlt
  · exact .done _ hge hslide

/-- Everything one step of the unit can do, where it goes on. -/
inductive UnitMove (s : State) : State → Prop
  /-- Nothing is presented (log 4). -/
  | wait (hidle : s.mode = .idle) (hnone : s.presented = none) : UnitMove s s
  /-- R220. -/
  | accept {w : Word} {t : State} (hidle : s.mode = .idle) (hword : s.presented = some w)
      (heffect : Accepted w s.advance t) : UnitMove s t
  /-- R155. -/
  | render {t : State} (hdumping : s.mode = .dumping) (heffect : Rendered s t) : UnitMove s t

theorem unitMove_of_unitStep {s t : State} (h : unitStep s = .next t) : UnitMove s t := by
  rcases unitStep_cases s with ⟨hm, hr⟩ | ⟨hm, hn, hr⟩ | ⟨w, hm, hw, hr⟩ <;> rw [hr] at h
  · exact .render hm (rendered_of_renderStep h)
  · cases h; exact .wait hm hn
  · exact .accept hm hw (accepted_of_acceptWord hm h)

/-- A presented command is taken by the step of an IDLE unit (R220). -/
theorem unitStep_of_presented {s : State} {w : Word} (hidle : s.mode = .idle) (hword : s.presented = some w) :
    unitStep s = acceptWord w s.advance := by
  simp [unitStep, acceptStep, hidle, hword]

/-- The host presents a command exactly while its position is inside the list (R34). -/
theorem presented_eq_none_iff (s : State) : s.presented = none ↔ s.program.length ≤ s.pc :=
  List.getElem?_eq_none_iff

theorem lt_of_presented {s : State} {w : Word} (h : s.presented = some w) : s.pc < s.program.length :=
  (List.getElem?_eq_some_iff.1 h).1

/-! ### What a move leaves unchanged -/

theorem Accepted.host_unchanged {w : Word} {s t : State} (h : Accepted w s t) :
    t.program = s.program ∧ t.pc = s.pc ∧ t.textLog = s.textLog := by
  cases h <;> simp

theorem Rendered.unchanged {s t : State} (h : Rendered s t) :
    t.program = s.program ∧ t.pc = s.pc ∧ t.valid = s.valid ∧ t.size = s.size ∧ t.words = s.words := by
  cases h <;> simp

/-! ### What an accepted word can change -/

/-- Every accepted word but an accepted DUMP completes with one response, which the registers hold (R29, R30). -/
theorem Accepted.responds_or_dump {w : Word} {s t : State} (h : Accepted w s t) :
    t.rspLog = s.rspLog ++ [⟨t.rspStatus, t.rspData⟩] ∧ t.mode = s.mode ∧ t.dumpI = s.dumpI ∨
      decode w = .legal .dump ∧ s.valid = true ∧ t = (s.setMode .dumping).setDumpI 0 := by
  cases h with
  | dump hw hvalid => exact .inr ⟨hw, hvalid, rfl⟩
  | answer | construct | write | clear => exact .inl ⟨rfl, rfl, rfl⟩

theorem Accepted.dump_of_mode {w : Word} {s t : State} (h : Accepted w s t) (hs : s.mode = .idle)
    (ht : t.mode = .dumping) : decode w = .legal .dump ∧ s.valid = true := by
  rcases h.responds_or_dump with ⟨-, hmode, -⟩ | ⟨hw, hvalid, -⟩
  · rw [ht, hs] at hmode; cases hmode
  · exact ⟨hw, hvalid⟩

/-- Only CONSTRUCT writes VALID and SIZE (R20, R21). -/
theorem Accepted.valid_size_unchanged_or_construct {w : Word} {s t : State} (h : Accepted w s t) :
    (t.valid = s.valid ∧ t.size = s.size) ∨
      ∃ S, decode w = .legal (.construct S) ∧ t.valid = true ∧ t.size.toNat = S.toNat := by
  cases h with
  | construct S hw hlegal =>
    have hle := (legal_le hlegal).2
    exact .inr ⟨S, hw, rfl, by simp; omega⟩
  | answer | write | clear | dump => exact .inl ⟨rfl, rfl⟩

/-- Only CONSTRUCT, SET, SWAP and CLEAR write the store (R23). -/
theorem Accepted.words_unchanged_or_writer {w : Word} {s t : State} (h : Accepted w s t) :
    t.words = s.words ∨
      ∃ i, decode w = .legal i ∧ (i = .clear ∨ ∃ x, i = .construct x ∨ i = .set x ∨ i = .swap x) := by
  cases h with
  | construct S hw => exact .inr ⟨_, hw, .inr ⟨S, .inl rfl⟩⟩
  | write i N v hw hi => exact .inr ⟨i, hw, .inr ⟨N, .inr hi⟩⟩
  | clear hw => exact .inr ⟨_, hw, .inl rfl⟩
  | answer | dump => exact .inl rfl

end Sys2Proof.Machine
end

/-! The state at the start of a run, acceptance, the logs, and who writes what. -/
section
namespace Sys2Proof.Machine

/-- Settles O50: each register and log of `State.reset` is its reset value as written, each word by `reset_words`. -/
theorem startOfARun : Obligations.StartOfARun :=
  ⟨rfl, rfl, reset_words, rfl, rfl, rfl, rfl, rfl, rfl, rfl⟩

/-- Settles O41: with no request due the step is the unit's, and that is `acceptWord` on the advanced state. -/
theorem stepRunsThePresentedCommand : Obligations.StepRunsThePresentedCommand := by
  intro s w hidle hdue hword
  rcases step_cases s with ⟨later, hr, -⟩ | ⟨-, hstep⟩
  · simp [hr] at hdue
  · rw [hstep, unitStep_of_presented (s := s.setResetIn (nearer s.resetIn)) hidle hword]
    exact ⟨fun i hi => acceptWord_legal hi _, fun ⟨why, hw⟩ => acceptWord_illegal hw _⟩

/-- Settles O42, by the three moves of the unit. -/
theorem acceptanceIsOneStepInOrder : Obligations.AcceptanceIsOneStepInOrder := by
  intro s t h
  cases unitMove_of_unitStep h with
  | wait hidle hnone =>
    have hlen := (presented_eq_none_iff s).1 hnone
    simp [hidle, hlen]
  | render hdumping heffect =>
    obtain ⟨hprogram, hpc, -⟩ := heffect.unchanged
    simp [hprogram, hpc, hdumping]
  | @accept w _ hidle hword heffect =>
    obtain ⟨hprogram, hpc, -⟩ := heffect.host_unchanged
    have hlt := lt_of_presented hword
    refine ⟨hprogram, by simp [hpc, hidle, hlt], by simp [hpc, hidle, hlt], fun _ _ ht => ?_, fun _ ht => ?_⟩
    · rcases heffect.responds_or_dump with ⟨hlog, -⟩ | ⟨-, -, rfl⟩
      · exact ⟨_, hlog, rfl, rfl⟩
      · cases ht
    · rw [← decode_eq_dump (heffect.dump_of_mode hidle ht).1]
      exact hword

/-- A step of the unit keeps both logs as prefixes, adds at most one response, and text only while DUMPING. -/
theorem UnitMove.logs_grow {s t : State} (h : UnitMove s t) :
    (t.rspLog = s.rspLog ∨ ∃ r, t.rspLog = s.rspLog ++ [r]) ∧ s.textLog <+: t.textLog ∧
      (s.mode = .idle → t.textLog = s.textLog) := by
  cases h with
  | wait => simp
  | accept hidle hword heffect =>
    obtain ⟨-, -, htext : t.textLog = s.textLog⟩ := heffect.host_unchanged
    refine ⟨?_, by rw [htext], fun _ => htext⟩
    rcases heffect.responds_or_dump with ⟨hlog, -⟩ | ⟨-, -, rfl⟩
    · exact .inr ⟨_, hlog⟩
    · exact .inl rfl
  | render hdumping heffect => cases heffect <;> simp [hdumping]

/-- Settles O45: a reset keeps both logs, and a step of the unit is one of its moves. -/
theorem logsOnlyGrow : Obligations.LogsOnlyGrow := by
  intro s t h
  rcases step_cases s with ⟨later, -, hr⟩ | ⟨-, hr⟩ <;> rw [hr] at h
  · cases h; simp
  · exact (unitMove_of_unitStep h).logs_grow

/-- Settles O46: of the unit's moves only an accepted CONSTRUCT writes VALID and SIZE. -/
theorem onlyConstructWritesInstance : Obligations.OnlyConstructWritesInstance := by
  intro s t h hchange
  cases unitMove_of_unitStep h with
  | wait => simp at hchange
  | render _ heffect =>
    obtain ⟨-, -, hvalid, hsize, -⟩ := heffect.unchanged
    simp [hvalid, hsize] at hchange
  | @accept w _ hidle hword heffect =>
    rcases heffect.valid_size_unchanged_or_construct with ⟨hvalid, hsize⟩ | ⟨S, hw, hvalid, hsize⟩
    · simp [hvalid, hsize] at hchange
    · exact ⟨hidle, w, S, hword, hw, hvalid, hsize⟩

/-- Settles O47: of the unit's moves only an accepted CONSTRUCT, SET, SWAP or CLEAR writes the store. -/
theorem onlyFourCommandsWriteTheStore : Obligations.OnlyFourCommandsWriteTheStore := by
  intro s t h hchange
  cases unitMove_of_unitStep h with
  | wait => exact absurd rfl hchange
  | render _ heffect =>
    obtain ⟨-, -, -, -, hwords⟩ := heffect.unchanged
    exact absurd hwords hchange
  | @accept w _ hidle hword heffect =>
    rcases heffect.words_unchanged_or_writer with hwords | ⟨i, hw, hi⟩
    · exact absurd hwords hchange
    · exact ⟨hidle, w, i, hword, hw, hi⟩

/-- Settles O48, by the moves of the unit: an accepted word but DUMP leaves MODE and DUMP_I, and the renderer turns
IDLE only by its completion. -/
theorem onlyDumpMovesTheRenderer : Obligations.OnlyDumpMovesTheRenderer := by
  intro s t h
  cases unitMove_of_unitStep h with
  | wait hidle => simp [hidle]
  | render hdumping heffect =>
    refine ⟨fun _ => .inl hdumping, fun hidle => ?_, fun _ ht => ?_⟩
    · rw [hidle] at hdumping; cases hdumping
    · cases heffect with
      | row => rw [setDumpI_mode, emit_mode, hdumping] at ht; cases ht
      | done _ hge => exact hge
  | @accept w _ hidle hword heffect =>
    have hdump (hw : decode w = .legal .dump) : s.program[s.pc]? = some 0x60000000#32 := decode_eq_dump hw ▸ hword
    refine ⟨fun hchange => ?_, fun _ ht => ?_, fun hdumping => ?_⟩
    · rcases heffect.responds_or_dump with ⟨-, -, hdumpI⟩ | ⟨hw, -, rfl⟩
      · exact absurd hdumpI hchange
      · exact .inr ⟨hdump hw, rfl⟩
    · obtain ⟨hw, hvalid⟩ := heffect.dump_of_mode hidle ht
      exact ⟨hdump hw, hvalid⟩
    · rw [hidle] at hdumping; cases hdumping

end Sys2Proof.Machine
end

/-! The store invariant (R25): one rule per operation that touches VALID, SIZE or the store, then every step. -/
section
namespace Sys2Proof.Machine

/-- The invariant speaks of VALID, SIZE and the store alone. -/
theorem StoreInv.congr {s t : State} (h : StoreInv s) (hvalid : t.valid = s.valid) (hsize : t.size = s.size)
    (hwords : t.words = s.words) : StoreInv t := by
  refine ⟨fun hv p hle hp => ?_, fun hv => ?_⟩
  · rw [bitRead?_congr hwords]
    exact h.1 (hvalid ▸ hv) p (hsize ▸ hle) hp
  · rw [hwords]
    exact h.2 (hvalid ▸ hv)

theorem storeInv_zeroWords (s : State) : StoreInv s.zeroWords :=
  ⟨fun _ _ _ hp => bitRead?_zeroWords s hp, fun _ => reset_words⟩

theorem StoreInv.setWord {s : State} {n k : Nat} {v : Word} (h : StoreInv s) (hvalid : s.valid = true)
    (hn : n < s.size.toNat) (hframe : ∀ p, p ≠ n → (s.setWord k v).bitRead? p = s.bitRead? p) :
    StoreInv (s.setWord k v) := by
  refine ⟨fun _ p (hle : s.size.toNat ≤ p) hp => ?_, fun hf => ?_⟩
  · rw [hframe p (by omega)]
    exact h.1 hvalid p hle hp
  · rw [setWord_valid, hvalid] at hf; cases hf

theorem Accepted.storeInv {w : Word} {s t : State} (h : Accepted w s t) (hs : StoreInv s) : StoreInv t := by
  cases h with
  | answer | dump => exact hs
  | construct | clear => exact storeInv_zeroWords _
  | write i N v _ _ hvalid hN hframe => exact hs.setWord hvalid hN hframe

theorem UnitMove.storeInv {s t : State} (h : UnitMove s t) (hs : StoreInv s) : StoreInv t := by
  cases h with
  | wait => exact hs
  | accept _ _ heffect => exact heffect.storeInv hs
  | render _ heffect =>
    obtain ⟨-, -, hvalid, hsize, hwords⟩ := heffect.unchanged
    exact hs.congr hvalid hsize hwords

theorem step_keeps_storeInv {s t : State} (hs : StoreInv s) (h : step s = .next t) : StoreInv t := by
  rcases step_cases s with ⟨later, -, hr⟩ | ⟨-, hr⟩ <;> rw [hr] at h
  · cases h
    exact ⟨fun hv => Bool.noConfusion hv, fun _ => reset_words⟩
  · exact (unitMove_of_unitStep h).storeInv hs

/-- While VALID is 1, a bit of the store whose position is at or above SIZE is 0. -/
theorem StoreInv.getLsbD_eq_false {s : State} (h : StoreInv s) (hvalid : s.valid = true) (k : Fin 8) {b : Nat}
    (hsize : s.size.toNat ≤ 32 * k.val + b) : (s.words.get k).getLsbD b = false := by
  by_cases hb : b < 32
  · have hbit := h.1 hvalid _ hsize (by omega)
    rw [bitRead?_eq_getLsbD s k hb] at hbit
    exact Option.some.inj hbit
  · exact BitVec.getLsbD_of_ge _ _ (by omega)

/-- Settles O54: the words past the active ones and the bits past a small size are at positions from SIZE on. -/
theorem stepKeepsStoreInvariant : Obligations.StepKeepsStoreInvariant := by
  intro s t hs h
  have ht := step_keeps_storeInv hs h
  refine ⟨ht, fun hvalid k hk => ?_, fun hvalid _ b hb => ?_⟩
  · have hsize : t.size.toNat ≤ 32 * k.val := by
      simp only [Config.activeWords, wordBits_eq] at hk
      omega
    apply BitVec.eq_of_getLsbD_eq
    intro b _
    simpa using ht.getLsbD_eq_false hvalid k (hsize.trans (Nat.le_add_right _ b))
  · exact ht.getLsbD_eq_false hvalid 0 (by simpa using hb)

end Sys2Proof.Machine
end

/-! The legal register combinations (R20, R21, R25, R27, R28, R34, R36, R180): one rule per operation of the state, then
every step. -/
section
namespace Sys2Proof.Machine

theorem Status.code_le (st : Status) : st.code.toNat ≤ 5 := by cases st <;> decide

/-- A reset unit is legal wherever its host and its log are (R210, R221). -/
theorem inv_resetUnit {s : State} (hlog : ∀ r ∈ s.rspLog, r.status.toNat ≤ 5) (hpos : s.pc ≤ s.program.length) :
    Inv s.resetUnit where
  legalSize h := by cases h
  noInstance _ := ⟨rfl, rfl, rfl⟩
  storeZero _ _ hp := bitRead?_zeroWords s hp
  idleOffset _ := by simp [restingOffsets]
  gridOffset h := by cases h
  statusProduced := by simp
  logProduced := hlog
  position := hpos

theorem Inv.setResetIn {s : State} (h : Inv s) (r : List Nat) : Inv (s.setResetIn r) := { h with }

theorem Inv.advance {s : State} {w : Word} (h : Inv s) (hword : s.presented = some w) : Inv s.advance :=
  { h with position := lt_of_presented hword }

theorem Inv.respond {s : State} (h : Inv s) (st : Status) (d : Word) : Inv (s.respond st d) :=
  { h with
    statusProduced := st.code_le
    logProduced := fun r hr => by
      rcases List.mem_append.1 hr with hr | hr
      · exact h.logProduced r hr
      · rw [List.mem_singleton.1 hr]; exact st.code_le }

theorem Inv.zeroWords {s : State} (h : Inv s) : Inv s.zeroWords :=
  { h with
    noInstance := fun hv => ⟨(h.noInstance hv).1, rfl, (h.noInstance hv).2.2⟩
    storeZero := fun _ _ hp => bitRead?_zeroWords s hp }

/-- An IDLE unit takes a new legal SIZE together with a store of zeros (R84). -/
theorem Inv.construct {s : State} {n : BitVec 9} (h : Inv s) (hidle : s.mode = .idle) (hn : n.toNat ∈ legalSizes) :
    Inv (s.setInstance n).zeroWords :=
  { h with
    legalSize := fun _ => hn
    noInstance := fun hv => by cases hv
    storeZero := fun _ _ hp => bitRead?_zeroWords _ hp
    gridOffset := fun (hm : s.mode = .dumping) => by rw [hidle] at hm; cases hm }

theorem Inv.setWord {s : State} {n k : Nat} {v : Word} (h : Inv s) (hvalid : s.valid = true)
    (hn : n < s.size.toNat) (hframe : ∀ p, p ≠ n → (s.setWord k v).bitRead? p = s.bitRead? p) :
    Inv (s.setWord k v) :=
  { h with
    noInstance := fun (hv : s.valid = false) => by rw [hvalid] at hv; cases hv
    storeZero := fun p (hle : s.size.toNat ≤ p) hp => by
      rw [hframe p (by omega)]
      exact h.storeZero p hle hp }

/-- A grid begins only while VALID is 1 (R154). -/
theorem Inv.startGrid {s : State} (h : Inv s) (hvalid : s.valid = true) : Inv ((s.setMode .dumping).setDumpI 0) :=
  { h with
    noInstance := fun (hv : s.valid = false) => by rw [hvalid] at hv; cases hv
    idleOffset := fun hm => by cases hm
    gridOffset := fun _ => .inl rfl }

/-- DUMPING implies VALID = 1 (R154), so the size is legal. -/
theorem Inv.legalSize_of_dumping {s : State} (h : Inv s) (hm : s.mode = .dumping) : s.size.toNat ∈ legalSizes := by
  apply h.legalSize
  by_contra hv
  obtain ⟨-, -, hidle⟩ := h.noInstance (Bool.eq_false_iff.2 hv)
  rw [hm] at hidle; cases hidle

/-- The row width is at most 16 (R150, R159). -/
theorem slide_le_of_legal {s : State} (h : s.size.toNat ∈ legalSizes) : s.slide ≤ 16 :=
  (by decide : ∀ n ∈ legalSizes, 2 * Nat.log2 n ≤ 16) _ h

/-- A row moves DUMP_I by the row width, with no overflow, to one row past the row it emitted (R156). -/
theorem Inv.emitRow {s : State} (h : Inv s) (hm : s.mode = .dumping) (hlt : s.dumpI.toNat < s.size.toNat)
    (text : List Byte) : Inv ((s.emit text).setDumpI (BitVec.ofNat 9 (s.dumpI.toNat + s.slide))) := by
  have hlegal := h.legalSize_of_dumping hm
  have hsize := (legal_le hlegal).2
  have hslide := slide_le_of_legal hlegal
  have hnext : (BitVec.ofNat 9 (s.dumpI.toNat + s.slide)).toNat = s.dumpI.toNat + s.slide := by
    rw [BitVec.toNat_ofNat]
    exact Nat.mod_eq_of_lt (by omega)
  obtain ⟨r, hr⟩ : ∃ r, s.dumpI.toNat = r * s.slide := by
    rcases h.gridOffset hm with h0 | ⟨r, -, hr⟩
    · exact ⟨0, by simp [h0]⟩
    · exact ⟨r + 1, hr⟩
  exact { h with
    idleOffset := fun (hidle : s.mode = .idle) => by rw [hm] at hidle; cases hidle
    gridOffset := fun _ => .inr ⟨r, hr ▸ hlt, by
      rw [setDumpI_dumpI, hnext, hr, Nat.add_mul, Nat.one_mul]; rfl⟩ }

/-- The row that reaches SIZE is the last one (R157). -/
theorem rowCount_eq_succ {n slide r : Nat} (hlt : r * slide < n) (hle : n ≤ (r + 1) * slide) :
    rowCount n slide = r + 1 := by
  simp only [Nat.add_mul, Nat.one_mul] at hle
  apply Nat.div_eq_of_lt_le <;> simp only [Nat.add_mul, Nat.one_mul] <;> omega

/-- Where the grid of each legal size leaves DUMP_I (R161). -/
theorem grid_end_resting : ∀ n ∈ legalSizes, 2 * Nat.log2 n ≠ 0 →
    rowCount n (2 * Nat.log2 n) * (2 * Nat.log2 n) ∈ restingOffsets := by decide

/-- The completion step leaves DUMP_I at the end of the grid (R157, R161). -/
theorem Inv.finishGrid {s : State} (h : Inv s) (hm : s.mode = .dumping) (hge : s.size.toNat ≤ s.dumpI.toNat)
    (hslide : s.slide ≠ 0) : Inv (s.setMode .idle) := by
  have hlegal := h.legalSize_of_dumping hm
  have hpos := (legal_le hlegal).1
  have hresting : s.dumpI.toNat ∈ restingOffsets := by
    rcases h.gridOffset hm with h0 | ⟨r, hlt, hr⟩
    · rw [h0] at hge
      simp at hge
      omega
    · have hrows : rowCount s.size.toNat s.slide = r + 1 := rowCount_eq_succ hlt (hr ▸ hge)
      rw [hr, ← hrows]
      exact grid_end_resting _ hlegal hslide
  exact { h with
    noInstance := fun hv => ⟨(h.noInstance hv).1, (h.noInstance hv).2.1, rfl⟩
    idleOffset := fun _ => hresting
    gridOffset := fun hd => by cases hd }

theorem Accepted.inv {w : Word} {s t : State} (h : Accepted w s t) (hs : Inv s) (hidle : s.mode = .idle) : Inv t := by
  cases h with
  | answer st d => exact hs.respond st d
  | construct S _ hlegal =>
    have hsize : (S.setWidth 9).toNat = S.toNat := by
      have hle := (legal_le hlegal).2
      simp; omega
    exact (hs.construct hidle (hsize ▸ hlegal)).respond ..
  | write i N v _ _ hvalid hN hframe => exact (hs.setWord hvalid hN hframe).respond ..
  | clear => exact hs.zeroWords.respond ..
  | dump _ hvalid => exact hs.startGrid hvalid

theorem Rendered.inv {s t : State} (h : Rendered s t) (hs : Inv s) (hm : s.mode = .dumping) : Inv t := by
  cases h with
  | row text hlt => exact hs.emitRow hm hlt text
  | done d hge hslide => exact (hs.finishGrid hm hge hslide).respond ..

theorem UnitMove.inv {s t : State} (h : UnitMove s t) (hs : Inv s) : Inv t := by
  cases h with
  | wait => exact hs
  | accept hidle hword heffect => exact heffect.inv (hs.advance hword) hidle
  | render hdumping heffect => exact heffect.inv hs hdumping

/-- Settles O55: a reset leaves a legal state, and so does each move of the unit. -/
theorem stepKeepsLegalState : Obligations.StepKeepsLegalState := by
  intro s t hs h
  rcases step_cases s with ⟨later, -, hr⟩ | ⟨-, hr⟩ <;> rw [hr] at h
  · cases h
    exact (inv_resetUnit hs.logProduced hs.position).setResetIn later
  · exact (unitMove_of_unitStep h).inv (hs.setResetIn _)

/-- Settles O56: the start of a run is a reset unit with an empty log and an empty list. -/
theorem resetIsLegal : Obligations.ResetIsLegal :=
  inv_resetUnit (s := State.reset) (fun _ hr => absurd hr List.not_mem_nil) (Nat.le_refl _)

end Sys2Proof.Machine
end

/-! The store in terms of its bits (R41, R42), and how much of it a GET reveals (R46, R104). -/
section
namespace Sys2Proof.Machine

/-- Settles O9: a position splits into its word index and its bit offset, which is `bitRead?_eq_getLsbD`. -/
theorem bitPositionIsWordAndOffset : Obligations.BitPositionIsWordAndOffset := fun s k b =>
  bitRead?_eq_getLsbD s k b.isLt

/-- A masked word is the mask or 0, by its addressed bit alone (R102, R105). -/
theorem and_mask (w : Word) (n : Nat) : w &&& mask n = if w.getLsbD (n % 32) then mask n else 0 := by
  rw [mask_eq, ← BitVec.twoPow_eq]
  exact BitVec.and_twoPow w (n % 32)

/-- The index check reads VALID and SIZE alone (R103). -/
theorem checkIndex_congr {s t : State} (hvalid : s.valid = t.valid) (hsize : s.size = t.size) (n : Operand) :
    checkIndex n s = checkIndex n t := by
  simp [checkIndex, hvalid, hsize]

/-- An index the check refuses is answered with the check's status, whatever the store is (R103). -/
theorem withIndexedWord_refused {n : Operand} {s : State} {e : Status} (hcheck : checkIndex n s = some e)
    (effect : Word → State) : withIndexedWord n s effect = .next (s.respond e (zext32 n)) := by
  simp [withIndexedWord, hcheck]

/-- An index the check accepts takes its effect on the word that holds its bit (R103). -/
theorem word?_of_withIndexedWord {n : Operand} {s t : State} {effect : Word → State}
    (hcheck : checkIndex n s = none) (h : withIndexedWord n s effect = .next t) :
    ∃ w, s.word? (wordIndex n.toNat) = some w ∧ t = effect w := by
  rw [withIndexedWord, hcheck] at h
  cases hword : s.word? (wordIndex n.toNat) with
  | none => simp [hword] at h
  | some w => exact ⟨w, rfl, by simpa [hword] using h.symm⟩

/-- Settles O16: both states pass or fail the index check alike, a refusal answers the operand, and an accepted GET
answers the word under the mask, which the addressed bit decides. -/
theorem getSeesOnlyTheAddressedBit : Obligations.GetSeesOnlyTheAddressedBit := by
  intro N s₁ s₂ t₁ t₂ hidle₁ hidle₂ hvalid hsize hbit h₁ h₂
  rw [exec, execGet, whenIdle_idle hidle₁] at h₁
  rw [exec, execGet, whenIdle_idle hidle₂] at h₂
  have hcheck := checkIndex_congr hvalid hsize N
  cases hc : checkIndex N s₂ with
  | some e =>
    rw [withIndexedWord_refused (hcheck.trans hc)] at h₁
    rw [withIndexedWord_refused hc] at h₂
    cases h₁; cases h₂
    exact ⟨rfl, rfl⟩
  | none =>
    obtain ⟨w₁, hw₁, rfl⟩ := word?_of_withIndexedWord (hcheck.trans hc) h₁
    obtain ⟨w₂, hw₂, rfl⟩ := word?_of_withIndexedWord hc h₂
    rw [State.bitRead?, State.bitRead?, hw₁, hw₂] at hbit
    have hsame : w₁.getLsbD (N.toNat % 32) = w₂.getLsbD (N.toNat % 32) := Option.some.inj hbit
    refine ⟨rfl, ?_⟩
    rw [respond_rspData, respond_rspData, and_mask, and_mask, hsame]

end Sys2Proof.Machine
end

/-! The encoding as numbers and the two directions of the round trip (R60, R61, R64, R65). -/
section
namespace Sys2Proof.Machine

/-- The opcode of a command (R61). -/
def opcodeOf : Instr → Nat
  | .construct _ => 1
  | .get _ => 2
  | .set _ => 3
  | .swap _ => 4
  | .clear => 5
  | .dump => 6

/-- The operand field of a command's word, 0 for CLEAR and DUMP (R60, R61). -/
def operandOf : Instr → Operand
  | .construct n | .get n | .set n | .swap n => n
  | .clear | .dump => 0#16

theorem opcodeOf_range (i : Instr) : 1 ≤ opcodeOf i ∧ opcodeOf i ≤ 6 := by
  cases i <;> simp [opcodeOf]

theorem operandOf_eq_zero {i : Instr} (h : 5 ≤ opcodeOf i) : operandOf i = 0#16 := by
  cases i with
  | construct | get | set | swap => simp [opcodeOf] at h
  | clear | dump => rfl

/-- An opcode in bits 31:28 and an operand in bits 15:0 do not overlap, so joining them adds them. -/
theorem toNat_opcode_or_operand {k : Nat} (hk : k < 16) (n : Operand) :
    (BitVec.ofNat 32 (2 ^ 28 * k) ||| n.setWidth 32).toNat = 2 ^ 28 * k + n.toNat := by
  have hn : n.toNat < 2 ^ 28 := by omega
  rw [Nat.two_pow_add_eq_or_of_lt hn, BitVec.toNat_or, BitVec.toNat_ofNat, BitVec.toNat_setWidth,
    Nat.mod_eq_of_lt (by omega), Nat.mod_eq_of_lt (by omega)]

/-- A command word as a number: the opcode, a reserved field of 0, the operand (R60, R61). -/
theorem encode_toNat (i : Instr) : (encode i).toNat = 2 ^ 28 * opcodeOf i + (operandOf i).toNat := by
  cases i with
  | construct n => exact toNat_opcode_or_operand (k := 1) (by decide) n
  | get n => exact toNat_opcode_or_operand (k := 2) (by decide) n
  | set n => exact toNat_opcode_or_operand (k := 3) (by decide) n
  | swap n => exact toNat_opcode_or_operand (k := 4) (by decide) n
  | clear | dump => rfl

theorem reservedField_eq_zero_iff (w : Word) : reservedField w = 0 ↔ w.toNat / 2 ^ 16 % 2 ^ 12 = 0 := by
  rw [← reservedField_toNat]
  exact BitVec.toNat_inj.symm

theorem operandField_eq_ofNat (w : Word) : operandField w = BitVec.ofNat 16 (w.toNat % 2 ^ 16) := by
  rw [← operandField_toNat, BitVec.ofNat_toNat, BitVec.setWidth_eq]

theorem operandField_eq_zero_iff (w : Word) : operandField w = 0 ↔ w.toNat % 2 ^ 16 = 0 := by
  rw [← operandField_toNat]
  exact BitVec.toNat_inj.symm

/-- The decoder on a word with the fields of a command (R65). -/
theorem decode_of_fields {w : Word} {i : Instr} (hrsv : reservedField w = 0)
    (hopc : (opcodeField w).toNat = opcodeOf i) (hopnd : operandField w = operandOf i) : decode w = .legal i := by
  cases i <;> simp [decode, hrsv, hopc, hopnd, opcodeOf, operandOf]

/-- A word that decodes to a command has the fields of that command (R65). -/
theorem fields_of_decode {w : Word} {i : Instr} (h : decode w = .legal i) :
    reservedField w = 0 ∧ (opcodeField w).toNat = opcodeOf i ∧ operandField w = operandOf i := by
  unfold decode at h
  split at h
  case isTrue => cases h
  case isFalse hrsv =>
    split at h
    case h_1 hopc | h_2 hopc | h_3 hopc | h_4 hopc => cases h; exact ⟨not_not.1 hrsv, hopc, rfl⟩
    case h_5 hopc | h_6 hopc =>
      split at h
      case isTrue hopnd => cases h; exact ⟨not_not.1 hrsv, hopc, hopnd⟩
      case isFalse => cases h
    case h_7 => cases h

theorem decode_encode (i : Instr) : decode (encode i) = .legal i := by
  have hnum := encode_toNat i
  have hopc := opcodeOf_range i
  have hopnd := (operandOf i).isLt
  apply decode_of_fields
  · rw [reservedField_eq_zero_iff]
    omega
  · rw [opcodeField_toNat]
    omega
  · apply BitVec.eq_of_toNat_eq
    rw [operandField_toNat]
    omega

theorem encode_of_decode {w : Word} {i : Instr} (h : decode w = .legal i) : encode i = w := by
  obtain ⟨hrsv, hopc, hopnd⟩ := fields_of_decode h
  rw [reservedField_eq_zero_iff] at hrsv
  rw [opcodeField_toNat] at hopc
  have hopnd' : w.toNat % 2 ^ 16 = (operandOf i).toNat := by rw [← operandField_toNat, hopnd]
  apply BitVec.eq_of_toNat_eq
  rw [encode_toNat]
  omega

/-- Settles O2: the encoding of a command has that command's fields, which are all the decoder reads. -/
theorem decodeOfEncodeIsTheCommand : Obligations.DecodeOfEncodeIsTheCommand := decode_encode

/-- Settles O3: a legal word has RSV 0 and the opcode and operand of its command, and these fields are the whole word. -/
theorem encodeOfDecodeIsTheWord : Obligations.EncodeOfDecodeIsTheWord := fun _ _ => encode_of_decode

theorem exists_illegal_iff (w : Word) : (∃ why, decode w = .illegal why) ↔ ¬ ∃ i, decode w = .legal i := by
  cases decode w <;> simp

/-- A word with an opcode of R61, RSV 0, and operand 0 where the command has none, is legal. -/
theorem exists_legal_of_fields {w : Word} (hpos : 1 ≤ w.toNat / 2 ^ 28) (hle : w.toNat / 2 ^ 28 ≤ 6)
    (hrsv : w.toNat / 2 ^ 16 % 2 ^ 12 = 0) (hopnd : 5 ≤ w.toNat / 2 ^ 28 → w.toNat % 2 ^ 16 = 0) :
    ∃ i, decode w = .legal i := by
  rw [← opcodeField_toNat] at hpos hle hopnd
  rw [← reservedField_eq_zero_iff] at hrsv
  rw [← operandField_eq_zero_iff] at hopnd
  obtain h | h | h | h | h | h : (opcodeField w).toNat = 1 ∨ (opcodeField w).toNat = 2 ∨ (opcodeField w).toNat = 3 ∨
      (opcodeField w).toNat = 4 ∨ (opcodeField w).toNat = 5 ∨ (opcodeField w).toNat = 6 := by omega
  · exact ⟨.construct (operandField w), decode_of_fields hrsv h rfl⟩
  · exact ⟨.get (operandField w), decode_of_fields hrsv h rfl⟩
  · exact ⟨.set (operandField w), decode_of_fields hrsv h rfl⟩
  · exact ⟨.swap (operandField w), decode_of_fields hrsv h rfl⟩
  · exact ⟨.clear, decode_of_fields hrsv h (hopnd (by omega))⟩
  · exact ⟨.dump, decode_of_fields hrsv h (hopnd (by omega))⟩

/-- Which words are legal (R64). -/
theorem exists_legal_iff (w : Word) : (∃ i, decode w = .legal i) ↔
    1 ≤ w.toNat / 2 ^ 28 ∧ w.toNat / 2 ^ 28 ≤ 6 ∧ w.toNat / 2 ^ 16 % 2 ^ 12 = 0 ∧
      (5 ≤ w.toNat / 2 ^ 28 → w.toNat % 2 ^ 16 = 0) := by
  constructor
  · rintro ⟨i, h⟩
    obtain ⟨hrsv, hopc, hopnd⟩ := fields_of_decode h
    have hrange := opcodeOf_range i
    rw [← hopc, opcodeField_toNat] at hrange
    refine ⟨hrange.1, hrange.2, (reservedField_eq_zero_iff w).1 hrsv, fun h5 => ?_⟩
    rw [← opcodeField_toNat, hopc] at h5
    exact (operandField_eq_zero_iff w).1 (hopnd.trans (operandOf_eq_zero h5))
  · rintro ⟨hpos, hle, hrsv, hopnd⟩
    exact exists_legal_of_fields hpos hle hrsv hopnd

/-- Settles O5: the illegal words are the complement of `exists_legal_iff`, and accepting one is `acceptWord_illegal`. -/
theorem illegalWordIsRefused : Obligations.IllegalWordIsRefused := by
  intro w
  constructor
  · rw [exists_illegal_iff, exists_legal_iff]
    omega
  · rintro ⟨why, h⟩ s
    exact acceptWord_illegal h s

end Sys2Proof.Machine
end

/-! The opcode table as mask and pattern rows (R65). -/
section
namespace Sys2Proof.Machine

/-- One command of each row of the opcode table. -/
def oneOfEachRow : List Instr := [.construct 0, .get 0, .set 0, .swap 0, .clear, .dump]

theorem tableRow_mem (i : Instr) : ∃ j ∈ oneOfEachRow, tableRow j = tableRow i := by
  cases i with
  | construct => exact ⟨.construct 0, by decide, rfl⟩
  | get => exact ⟨.get 0, by decide, rfl⟩
  | set => exact ⟨.set 0, by decide, rfl⟩
  | swap => exact ⟨.swap 0, by decide, rfl⟩
  | clear => exact ⟨.clear, by decide, rfl⟩
  | dump => exact ⟨.dump, by decide, rfl⟩

theorem covers_iff (r : TableRow) (w : Word) : r.covers w = true ↔ w &&& r.mask = r.pattern := by
  simp [TableRow.covers]

/-- The row of a command covers its encoding (R65). -/
theorem tableRow_covers_encode (i : Instr) : (tableRow i).covers (encode i) = true := by
  cases i with
  | construct n => exact Laws.EncodeMatchesRow.construct n
  | get n => exact Laws.EncodeMatchesRow.get n
  | set n => exact Laws.EncodeMatchesRow.set n
  | swap n => exact Laws.EncodeMatchesRow.swap n
  | clear => exact Laws.EncodeMatchesRow.clear
  | dump => exact Laws.EncodeMatchesRow.dump

theorem opcodeField_and (w m : Word) : opcodeField (w &&& m) = opcodeField w &&& opcodeField m :=
  BitVec.extractLsb'_and

theorem reservedField_and (w m : Word) : reservedField (w &&& m) = reservedField w &&& reservedField m :=
  BitVec.extractLsb'_and

/-- Every row fixes all of OPC, and RSV to 0. -/
theorem tableRow_fields (i : Instr) : opcodeField (tableRow i).mask = BitVec.allOnes 4 ∧
    reservedField (tableRow i).mask = BitVec.allOnes 12 ∧ reservedField (tableRow i).pattern = 0 := by
  obtain ⟨j, hj, hrow⟩ := tableRow_mem i
  rw [← hrow]
  exact (by decide : ∀ j ∈ oneOfEachRow, opcodeField (tableRow j).mask = BitVec.allOnes 4 ∧
    reservedField (tableRow j).mask = BitVec.allOnes 12 ∧ reservedField (tableRow j).pattern = 0) j hj

/-- A word that a row covers has the opcode of the row's pattern. -/
theorem opcodeField_of_covers {i : Instr} {w : Word} (h : (tableRow i).covers w = true) :
    opcodeField w = opcodeField (tableRow i).pattern := by
  obtain ⟨hmask, -, -⟩ := tableRow_fields i
  rw [← (covers_iff _ w).1 h, opcodeField_and, hmask, BitVec.and_allOnes]

theorem reservedField_of_covers {i : Instr} {w : Word} (h : (tableRow i).covers w = true) : reservedField w = 0 := by
  obtain ⟨-, hmask, hpattern⟩ := tableRow_fields i
  rw [← hpattern, ← (covers_iff _ w).1 h, reservedField_and, hmask, BitVec.and_allOnes]

/-- The opcode of a row's pattern is that of the command's own encoding, which the row covers. -/
theorem opcodeField_pattern (i : Instr) : (opcodeField (tableRow i).pattern).toNat = opcodeOf i := by
  obtain ⟨-, hopc, -⟩ := fields_of_decode (decode_encode i)
  rwa [opcodeField_of_covers (tableRow_covers_encode i)] at hopc

/-- A word that a row covers is legal (R65). -/
theorem exists_legal_of_covers {i : Instr} {w : Word} (h : (tableRow i).covers w = true) :
    ∃ j, decode w = .legal j := by
  have hrsv := reservedField_of_covers h
  have hopc : (opcodeField w).toNat = opcodeOf i := by rw [opcodeField_of_covers h, opcodeField_pattern]
  cases i with
  | construct => exact ⟨.construct (operandField w), decode_of_fields hrsv hopc rfl⟩
  | get => exact ⟨.get (operandField w), decode_of_fields hrsv hopc rfl⟩
  | set => exact ⟨.set (operandField w), decode_of_fields hrsv hopc rfl⟩
  | swap => exact ⟨.swap (operandField w), decode_of_fields hrsv hopc rfl⟩
  | clear =>
    have hw : w &&& BitVec.allOnes 32 = 0x50000000#32 := (covers_iff _ w).1 h
    rw [BitVec.and_allOnes] at hw
    exact ⟨.clear, hw ▸ decode_encode .clear⟩
  | dump =>
    have hw : w &&& BitVec.allOnes 32 = 0x60000000#32 := (covers_iff _ w).1 h
    rw [BitVec.and_allOnes] at hw
    exact ⟨.dump, hw ▸ decode_encode .dump⟩

/-- A word is legal exactly when a row of the table covers it (R65). -/
theorem exists_legal_iff_covers (w : Word) :
    (∃ i, decode w = .legal i) ↔ ∃ i ∈ oneOfEachRow, (tableRow i).covers w = true := by
  constructor
  · rintro ⟨i, h⟩
    obtain ⟨j, hj, hrow⟩ := tableRow_mem i
    exact ⟨j, hj, by rw [hrow, ← encode_of_decode h]; exact tableRow_covers_encode i⟩
  · rintro ⟨i, -, h⟩
    exact exists_legal_of_covers h

/-- No two rows cover one word: their opcodes differ (R65). -/
theorem countP_covers_le_one (w : Word) : oneOfEachRow.countP (fun i => (tableRow i).covers w) ≤ 1 := by
  calc oneOfEachRow.countP (fun i => (tableRow i).covers w)
      ≤ oneOfEachRow.countP (fun i => opcodeField w == opcodeField (tableRow i).pattern) :=
        List.countP_mono_left fun i _ h => beq_iff_eq.2 (opcodeField_of_covers h)
    _ ≤ 1 := (by decide : ∀ o : BitVec 4,
        oneOfEachRow.countP (fun i => o == opcodeField (tableRow i).pattern) ≤ 1) _

/-- Settles O4: the legal clauses by `decode_of_fields`, the illegal ones by `exists_legal_iff`, and the table through one
command of each of its rows. -/
theorem decodeReadsFieldsAndTable : Obligations.DecodeReadsFieldsAndTable := by
  intro w opc rsv opnd rows
  have hopnd : operandField w = opnd := operandField_eq_ofNat w
  have hzero : opnd = 0 ↔ w.toNat % 2 ^ 16 = 0 := by rw [← hopnd, operandField_eq_zero_iff]
  have hrows : rows = oneOfEachRow.map fun i => ((tableRow i).mask, (tableRow i).pattern) := rfl
  have legal : ∀ i, rsv = 0 → opc = opcodeOf i → opnd = operandOf i → decode w = .legal i := fun i h0 ho hn =>
    decode_of_fields ((reservedField_eq_zero_iff w).2 h0) ((opcodeField_toNat w).trans ho) (hopnd.trans hn)
  have illegal : (¬ (1 ≤ opc ∧ opc ≤ 6 ∧ rsv = 0 ∧ (5 ≤ opc → w.toNat % 2 ^ 16 = 0))) →
      ∃ why, decode w = .illegal why := by
    rw [exists_illegal_iff, exists_legal_iff]
    exact id
  have noOperand : ∀ i, 5 ≤ opcodeOf i → rsv = 0 → opc = opcodeOf i →
      if opnd = 0 then decode w = .legal i else ∃ why, decode w = .illegal why := by
    intro i h5 h0 ho
    split
    case isTrue h => exact legal i h0 ho (h.trans (operandOf_eq_zero h5).symm)
    case isFalse h => rw [hzero] at h; exact illegal (by omega)
  refine ⟨fun h => illegal (by omega), fun h0 ho => legal _ h0 ho rfl, fun h0 ho => legal _ h0 ho rfl,
    fun h0 ho => legal _ h0 ho rfl, fun h0 ho => legal _ h0 ho rfl, noOperand .clear (by decide),
    noOperand .dump (by decide), fun _ ho => illegal (by omega), ?_, ?_⟩
  · rw [exists_legal_iff_covers, hrows]
    simp [covers_iff]
  · rw [← List.countP_eq_length_filter, hrows, List.countP_map]
    exact countP_covers_le_one w

end Sys2Proof.Machine
end

/-! The assembler on the lines of a text (R67, log 6). -/
section
namespace Sys2Proof.Machine

/-- A line without words adds no command. -/
theorem parseLines_cons_of_no_words {l : List Byte} (h : lineTokens l = []) (ls : List (List Byte)) :
    parseLines (l :: ls) = parseLines ls := by
  simp [parseLines, h]

/-- A line of a command puts it before those of the lines that follow. -/
theorem parseLines_cons_of_command {l : List Byte} {i : Instr} (hne : lineTokens l ≠ [])
    (h : parseTokens (lineTokens l) = some i) {ls : List (List Byte)} {is : List Instr}
    (hls : parseLines ls = some is) : parseLines (l :: ls) = some (i :: is) := by
  simp [parseLines, hls, h]

/-- A single line whose words are no command is refused. -/
theorem parseLines_refused {l : List Byte} (hne : lineTokens l ≠ []) (h : parseTokens (lineTokens l) = none) :
    parseLines [l] = none := by
  simp [parseLines, h]

/-- The commands of a list of lines, in their order. -/
theorem parseLines_lines : ∀ {lines : List (Option Instr × List Byte)}, (∀ p ∈ lines, IsLine p.1 p.2) →
    parseLines (lines.map (·.2)) = some (lines.filterMap (·.1))
  | [], _ => rfl
  | (none, l) :: rest, h => by
    have ih := parseLines_lines fun p hp => h p (List.mem_cons_of_mem _ hp)
    have hl : IsLine none l := h _ List.mem_cons_self
    rw [List.map_cons, parseLines_cons_of_no_words (lineTokens_trailer hl), ih]
    rfl
  | (some i, l) :: rest, h => by
    have ih := parseLines_lines fun p hp => h p (List.mem_cons_of_mem _ hp)
    have hl : IsLine (some i) l := h _ List.mem_cons_self
    obtain ⟨hne, hi⟩ := parseTokens_line hl
    exact parseLines_cons_of_command hne hi ih

/-- A text of lines is assembled to the words of its commands, in their order (R67). -/
theorem assemble_lines {lines : List (Option Instr × List Byte)} (h : ∀ p ∈ lines, IsLine p.1 p.2) :
    assemble (List.intercalate [lineFeed] (lines.map (·.2))) = some ((lines.filterMap (·.1)).map encode) := by
  cases lines with
  | nil => rfl
  | cons p rest =>
    have hlf : ∀ l ∈ (p :: rest).map (·.2), lineFeed ∉ l := by
      intro l hl
      obtain ⟨q, hq, rfl⟩ := List.mem_map.1 hl
      exact lineFeed_not_mem_line (h q hq)
    rw [assemble, splitAtByte_intercalate (by simp) hlf, parseLines_lines h]
    rfl

/-- The assembly line of a command is a text of that command (R67). -/
theorem isCommandText_disassemble (i : Instr) : IsCommandText i (disassemble i) := by
  cases i with
  | construct n => exact ⟨dec n.toNat, .inl rfl, rfl⟩
  | get n => exact ⟨dec n.toNat, .inl rfl, rfl⟩
  | set n => exact ⟨dec n.toNat, .inl rfl, rfl⟩
  | swap n => exact ⟨dec n.toNat, .inl rfl, rfl⟩
  | clear | dump => rfl

theorem assemble_disassemble (i : Instr) : assemble (disassemble i) = some [encode i] := by
  have hline : IsLine (some i) (disassemble i) :=
    ⟨disassemble i, [], isCommandText_disassemble i, ⟨0, .inl rfl⟩, by simp⟩
  simpa [List.intercalate] using assemble_lines (lines := [(some i, disassemble i)]) (by simpa using hline)

/-- The two words of a line without a comment. -/
theorem lineTokens_two_words {a m : List Byte} (hane : a ≠ []) (hmne : m ≠ [])
    (ha : ∀ b ∈ a, b ≠ spaceByte ∧ b ≠ 0x23#8) (hm : ∀ b ∈ m, b ≠ spaceByte ∧ b ≠ 0x23#8) :
    lineTokens (a ++ spaceByte :: m) = [a, m] := by
  have hcomment : (a ++ spaceByte :: m).takeWhile (· ≠ 0x23#8) = a ++ spaceByte :: m := by
    rw [List.takeWhile_eq_self_iff]
    intro b hb
    rcases List.mem_append.1 hb with hb | hb
    · simpa using (ha b hb).2
    · rcases List.mem_cons.1 hb with rfl | hb
      · decide
      · simpa using (hm b hb).2
  rw [lineTokens, hcomment, splitAtByte_append _ fun h => (ha _ h).1 rfl,
    splitAtByte_of_not_mem fun h => (hm _ h).1 rfl]
  simp [hane, hmne]

/-- A number above 65535 is no operand (R67). -/
theorem operand?_of_gt {n : Nat} {m : List Byte} (hn : 65535 < n) (hm : IsNumeral n m) : operand? m = none := by
  rw [operand?, numberValue?_numeral hm]
  exact if_neg (by omega)

/-- A word followed by a number above 65535 is refused (R67). -/
theorem assemble_operand_too_large {n : Nat} {a m : List Byte} (hn : 65535 < n) (hm : IsNumeral n m) (hne : a ≠ [])
    (ha : ∀ b ∈ a, b ≠ spaceByte ∧ b ≠ lineFeed ∧ b ≠ 0x23#8) : assemble (a ++ spaceByte :: m) = none := by
  obtain ⟨hmne, hmb⟩ := numeral_bytes hm
  have hlf : lineFeed ∉ a ++ spaceByte :: m := by
    intro h
    rcases List.mem_append.1 h with h | h
    · exact (ha _ h).2.1 rfl
    · rcases List.mem_cons.1 h with h | h
      · exact absurd h (by decide)
      · exact (hmb _ h).2.1 rfl
  have htokens : lineTokens (a ++ spaceByte :: m) = [a, m] :=
    lineTokens_two_words hne hmne (fun b hb => ⟨(ha b hb).1, (ha b hb).2.2⟩) fun b hb => ⟨(hmb b hb).1, (hmb b hb).2.2⟩
  have hparse : parseTokens [a, m] = none := by simp [parseTokens, operand?_of_gt hn hm]
  rw [assemble, splitAtByte_of_not_mem hlf, parseLines_refused (by simp [htokens]) (htokens ▸ hparse)]
  rfl

/-- Settles O6: one line is a text of one line, a text splits into its lines and each line is read alone, and a numeral
above 65535 is no operand. -/
theorem assemblerReadsEveryCommand : Obligations.AssemblerReadsEveryCommand := by
  refine ⟨assemble_disassemble, fun _ => assemble_lines, fun n m hn hm c hc => ?_⟩
  obtain ⟨hne, hbytes⟩ := (by decide : ∀ c ∈ ["construct", "get", "set", "swap"],
    ascii c ≠ [] ∧ ∀ b ∈ ascii c, b ≠ spaceByte ∧ b ≠ lineFeed ∧ b ≠ 0x23#8) c hc
  exact assemble_operand_too_large hn hm hne hbytes

/-- A row of R69's table: the assembly line of a command and its command word. -/
theorem table_row {i : Instr} {line : List Byte} {w : Word} (hline : disassemble i = line) (hw : encode i = w) :
    assemble line = some [w] ∧ decode w = .legal i := by
  subst hline hw
  exact ⟨assemble_disassemble i, decode_encode i⟩

/-- Settles O1: each legal row of the table is a command's own line and word, and the three illegal words are decoded. -/
theorem encodingExamplesDecode : Obligations.EncodingExamplesDecode :=
  ⟨table_row (by decide) (by decide), table_row (by decide) (by decide), table_row (by decide) (by decide),
    table_row (by decide) (by decide), table_row (by decide) (by decide), table_row (by decide) (by decide),
    table_row (by decide) (by decide), table_row rfl rfl, table_row rfl rfl,
    ⟨.opcode, by decide⟩, ⟨.reservedNotZero, by decide⟩, ⟨.operandNotZero, by decide⟩⟩

end Sys2Proof.Machine
end

/-! Where a step goes on: every command where SIZE is legal (R103, R183), the renderer inside its grid (R156, R157), and
so every step from a legal state. -/
section
namespace Sys2Proof.Machine

/-- An index access never stops where a constructed unit has a legal SIZE (R103). -/
theorem withIndexedWord_goes_on {s : State} (hlegal : s.valid = true → s.size.toNat ∈ legalSizes) (n : Operand)
    (effect : Word → State) : ∃ t, withIndexedWord n s effect = .next t := by
  rcases withIndexedWord_cases n s effect with ⟨_, h⟩ | ⟨_, _, h⟩ | ⟨_, _, _, _, h⟩ | ⟨hvalid, hlt, hge, _⟩
  · exact ⟨_, h⟩
  · exact ⟨_, h⟩
  · exact ⟨_, h⟩
  · have hle := (legal_le (hlegal hvalid)).2
    omega

theorem whenConstructed_goes_on (s : State) (d : Word) (t : State) : ∃ u, whenConstructed s d (.next t) = .next u := by
  cases hv : s.valid with
  | false => exact ⟨_, whenConstructed_invalid hv d _⟩
  | true => exact ⟨_, whenConstructed_valid hv d _⟩

/-- Every command goes on where a constructed unit has a legal SIZE (R183). -/
theorem exec_goes_on {s : State} (hlegal : s.valid = true → s.size.toNat ∈ legalSizes) (i : Instr) :
    ∃ t, exec i s = .next t := by
  cases hm : s.mode with
  | dumping => exact ⟨s, by cases i <;> exact whenIdle_dumping hm _⟩
  | idle =>
    cases i with
    | construct n =>
      rw [exec, execConstruct, whenIdle_idle hm]
      cases checkSize n <;> exact ⟨_, rfl⟩
    | get n => rw [exec, execGet, whenIdle_idle hm]; exact withIndexedWord_goes_on hlegal n _
    | set n => rw [exec, execSet, whenIdle_idle hm]; exact withIndexedWord_goes_on hlegal n _
    | swap n => rw [exec, execSwap, whenIdle_idle hm]; exact withIndexedWord_goes_on hlegal n _
    | clear => rw [exec, execClear, whenIdle_idle hm]; exact whenConstructed_goes_on s 0 _
    | dump => rw [exec, execDump, whenIdle_idle hm]; exact whenConstructed_goes_on s 0 _

/-- Every accepted word goes on where a constructed unit has a legal SIZE (R64, R183). -/
theorem acceptWord_goes_on {s : State} (hlegal : s.valid = true → s.size.toNat ∈ legalSizes) (w : Word) :
    ∃ t, acceptWord w s = .next t := by
  rcases acceptWord_cases w s with ⟨i, -, h⟩ | ⟨_, -, h⟩ <;> rw [h]
  · exact exec_goes_on hlegal i
  · exact ⟨_, rfl⟩

/-- The row step (R156). -/
theorem renderStep_of_lt {s : State} {bits : List Bool} (hlegal : s.size.toNat ∈ legalSizes)
    (hlt : s.dumpI.toNat < s.size.toNat) (hbits : s.bitsFrom? s.dumpI.toNat s.slide = some bits) :
    renderStep s = .next ((s.emit (Row.mk s.dumpI.toNat bits).line).setDumpI
      (BitVec.ofNat 9 (s.dumpI.toNat + s.slide))) := by
  have hslide : slideOf (Nat.log2 s.size.toNat) = s.slide := rfl
  simp [renderStep, log2?_legal hlegal, hlt, renderRow, hslide, hbits]

/-- The completion step (R157). -/
theorem renderStep_of_ge {s : State} (hlegal : s.size.toNat ∈ legalSizes) (hge : s.size.toNat ≤ s.dumpI.toNat)
    (hne : s.slide ≠ 0) : renderStep s = .next ((s.setMode .idle).respond .ok (BitVec.ofNat 32 s.rows)) := by
  have hslide : slideOf (Nat.log2 s.size.toNat) = s.slide := rfl
  simp [renderStep, log2?_legal hlegal, Nat.not_lt.2 hge, renderDone, hslide, hne, State.rows]

/-- While DUMPING, DUMP_I is a multiple of the row width (R28, R151). -/
theorem Inv.dumpI_eq_mul {s : State} (h : Inv s) (hm : s.mode = .dumping) : ∃ r, s.dumpI.toNat = r * s.slide := by
  rcases h.gridOffset hm with h0 | ⟨r, -, hr⟩
  · exact ⟨0, by simp [h0]⟩
  · exact ⟨r + 1, hr⟩

/-- A row that begins below SIZE ends inside the store: at SIZE 256 the row width divides 256, and a smaller SIZE leaves
room for the widest row (R158, R159). -/
theorem Inv.row_le_store {s : State} (h : Inv s) (hm : s.mode = .dumping) (hlt : s.dumpI.toNat < s.size.toNat) :
    s.dumpI.toNat + s.slide ≤ 256 := by
  have hlegal := h.legalSize_of_dumping hm
  have hslide := slide_le_of_legal hlegal
  obtain ⟨r, hr⟩ := h.dumpI_eq_mul hm
  rcases (by decide : ∀ n ∈ legalSizes, n ≤ 128 ∨ n = 256) _ hlegal with hsmall | hfull
  · omega
  · have h16 : s.slide = 16 := by rw [State.slide, hfull]; decide
    rw [h16] at hr ⊢
    omega

/-- A grid that has reached SIZE has rows of some width: at row width 0, DUMP_I stays 0 (R160). -/
theorem Inv.slide_ne_zero {s : State} (h : Inv s) (hm : s.mode = .dumping) (hge : s.size.toNat ≤ s.dumpI.toNat) :
    s.slide ≠ 0 := by
  intro h0
  obtain ⟨r, hr⟩ := h.dumpI_eq_mul hm
  have hpos := (legal_le (h.legalSize_of_dumping hm)).1
  rw [h0, Nat.mul_zero] at hr
  omega

/-- The renderer goes on from a legal state, with a row or with the completion (R156, R157, R160). -/
theorem Inv.renderStep_goes_on {s : State} (h : Inv s) (hm : s.mode = .dumping) : ∃ t, renderStep s = .next t := by
  have hlegal := h.legalSize_of_dumping hm
  rcases Nat.lt_or_ge s.dumpI.toNat s.size.toNat with hlt | hge
  · obtain ⟨bits, hbits, -, -⟩ := bitsFrom?_of_le s s.slide s.dumpI.toNat (h.row_le_store hm hlt)
    exact ⟨_, renderStep_of_lt hlegal hlt hbits⟩
  · exact ⟨_, renderStep_of_ge hlegal hge (h.slide_ne_zero hm hge)⟩

theorem Inv.unitStep_goes_on {s : State} (h : Inv s) : ∃ t, unitStep s = .next t := by
  rcases unitStep_cases s with ⟨hm, hstep⟩ | ⟨-, -, hstep⟩ | ⟨w, -, -, hstep⟩ <;> rw [hstep]
  · exact h.renderStep_goes_on hm
  · exact ⟨s, rfl⟩
  · exact acceptWord_goes_on (s := s.advance) h.legalSize w

/-- Settles O57: a due reset is a step, and else the unit renders, waits or accepts, each of which goes on. -/
theorem legalStateNeverStops : Obligations.LegalStateNeverStops := by
  intro s h
  rcases step_cases s with ⟨later, -, hstep⟩ | ⟨-, hstep⟩ <;> rw [hstep]
  · exact ⟨_, rfl⟩
  · exact (h.setResetIn _).unitStep_goes_on

end Sys2Proof.Machine
end

/-! CONSTRUCT (R80 to R87): which sizes its check lets through, and its effect on an IDLE unit by the check's answer. -/
section
namespace Sys2Proof.Machine

/-- The powers of two that an operand can carry and the store cannot hold (R62, R81). -/
def oversizes : List Nat := [512, 1024, 2048, 4096, 8192, 16384, 32768]

theorem mem_legalSizes_iff (n : Nat) : n ∈ legalSizes ↔ isPow2 n = true ∧ n ≤ 256 := by
  constructor
  · intro h
    exact ⟨(log2?_eq_some (log2?_legal h)).1, (legal_le h).2⟩
  · rintro ⟨hpow, hle⟩
    exact legalSizes_of_isPow2 hpow hle

theorem mem_oversizes_iff (S : Operand) : S.toNat ∈ oversizes ↔ isPow2 S.toNat = true ∧ 256 < S.toNat := by
  constructor
  · intro h
    exact (by decide : ∀ n ∈ oversizes, isPow2 n = true ∧ 256 < n) _ h
  · rintro ⟨hpow, hgt⟩
    obtain ⟨k, hk⟩ := (isPow2_iff_exists_two_pow _).1 hpow
    have hk16 : k < 16 := (Nat.pow_lt_pow_iff_right (by decide : 1 < 2)).1 (hk ▸ S.isLt)
    rw [hk] at hgt ⊢
    exact (by decide : ∀ j < 16, 256 < 2 ^ j → 2 ^ j ∈ oversizes) k hk16 hgt

/-- A size the check lets through fits the 9 bits of SIZE (R21, R84). -/
theorem toNat_setWidth_of_le {S : Operand} (hle : S.toNat ≤ 256) : (S.setWidth 9).toNat = S.toNat := by
  rw [BitVec.toNat_setWidth]
  exact Nat.mod_eq_of_lt (by omega)

theorem checkSize_legal {S : Operand} (hlegal : S.toNat ∈ legalSizes) : checkSize S = none := by
  obtain ⟨hpow, hle⟩ := (mem_legalSizes_iff _).1 hlegal
  simp [checkSize, hpow, Nat.not_lt.2 hle]

/-- A refused size is answered with the check's status and the size, and changes nothing else (R82). -/
theorem exec_construct_refused {S : Operand} {s : State} {e : Status} (hidle : s.mode = .idle)
    (hcheck : checkSize S = some e) : exec (.construct S) s = .next (s.respond e (zext32 S)) := by
  rw [exec, execConstruct, whenIdle_idle hidle, hcheck]
  rfl

/-- A size the check lets through is written to SIZE, with VALID 1 and a store of zeros (R84). -/
theorem exec_construct_accepted {S : Operand} {s : State} (hidle : s.mode = .idle) (hcheck : checkSize S = none) :
    exec (.construct S) s = .next ((s.setInstance (S.setWidth 9)).zeroWords.respond .ok 0) := by
  rw [exec, execConstruct, whenIdle_idle hidle, hcheck]

/-- While DUMPING a step is a reset or the renderer's, and neither moves the host (R155, R220, R221). -/
theorem heldWhileDumping (s : State) : HeldWhileDumping s := by
  intro hdumping t h
  rcases step_cases s with ⟨later, -, hr⟩ | ⟨-, hr⟩ <;> rw [hr] at h
  · cases h
    exact ⟨rfl, rfl⟩
  · cases unitMove_of_unitStep h with
    | wait hidle | accept hidle => rw [setResetIn_mode, hdumping] at hidle; cases hidle
    | render _ heffect =>
      obtain ⟨hprogram, hpc, -⟩ := heffect.unchanged
      exact ⟨hpc, hprogram⟩

/-- Settles O10: the size check has one answer per clause, and each answer has its next state. -/
theorem constructFollowsItsRule : Obligations.ConstructFollowsItsRule := by
  intro S s
  simp only [BitVec.ofNat_toNat, ← isPow2_iff_exists_two_pow]
  refine ⟨rfl, heldWhileDumping s, ?_⟩
  rcases checkSize_cases S with ⟨hpow, hcheck⟩ | ⟨hpow, hgt, hcheck⟩ | ⟨hpow, hle, hcheck⟩
  · have hnot : ¬ isPow2 S.toNat = true := by simp [hpow]
    exact ⟨fun hidle _ => exec_construct_refused hidle hcheck, fun _ h => absurd h hnot, fun _ h => absurd h hnot⟩
  · exact ⟨fun _ h => absurd hpow h, fun hidle _ _ => exec_construct_refused hidle hcheck,
      fun _ _ hle => absurd hle (by omega)⟩
  · exact ⟨fun _ h => absurd hpow h, fun _ _ hgt => absurd hgt (by omega),
      fun hidle _ _ => exec_construct_accepted hidle hcheck⟩

/-- Settles O11: the two lists are the powers of two up to 256 and above it, which the size check tells apart. -/
theorem constructSucceedsExactlyOnLegalSizes : Obligations.ConstructSucceedsExactlyOnLegalSizes := by
  intro S s hidle
  change ∃ t, _ ∧ (_ ↔ S.toNat ∈ legalSizes) ∧ (_ ↔ S.toNat ∈ oversizes) ∧ _
  rw [mem_legalSizes_iff, mem_oversizes_iff, ← isPow2_iff_exists_two_pow]
  rcases checkSize_cases S with ⟨hpow, hcheck⟩ | ⟨hpow, hgt, hcheck⟩ | ⟨hpow, hle, hcheck⟩
  · exact ⟨_, exec_construct_refused hidle hcheck, by simp [Status.code, hpow]⟩
  · exact ⟨_, exec_construct_refused hidle hcheck, by simp [Status.code, hpow, hgt]⟩
  · have hsize := toNat_setWidth_of_le hle
    exact ⟨_, exec_construct_accepted hidle hcheck, by simp [Status.code, hpow, hle, hsize, -BitVec.toNat_setWidth]⟩

/-- Settles O12: the accepted CONSTRUCT writes VALID, SIZE and every word, and a reset keeps the rest of what is
compared. -/
theorem reconstructionEqualsResetThenConstruct : Obligations.ReconstructionEqualsResetThenConstruct := by
  intro S s hidle hvalid hlegal
  have hcheck := checkSize_legal hlegal
  have hle := (legal_le hlegal).2
  exact ⟨_, _, exec_construct_accepted hidle hcheck, exec_construct_accepted (resetUnit_mode s) hcheck,
    rfl, rfl, rfl, hidle, rfl, rfl, rfl, rfl, toNat_setWidth_of_le hle, fun _ hp =>
      bitRead?_zeroWords (s.setInstance (S.setWidth 9)) hp⟩

end Sys2Proof.Machine
end

/-! The mask and the index datapath of a 16-bit operand (R100, R101, R102). -/
section
namespace Sys2Proof.Machine

/-- The mask has the addressed bit (R102). -/
@[simp] theorem mask_getLsbD_self (n : Nat) : (mask n).getLsbD (n % 32) = true := by
  rw [mask_eq, ← BitVec.twoPow_eq, BitVec.getLsbD_twoPow]
  simp [Nat.mod_lt]

theorem mask_ne_zero (n : Nat) : mask n ≠ 0#32 := by
  intro h
  have hbit := mask_getLsbD_self n
  simp [h] at hbit

theorem mask_getLsbD (n b : Nat) : (mask n).getLsbD b = decide (b = n % 32) := by
  by_cases hb : b = n % 32
  · simp [hb]
  · simp [hb, mask_getLsbD_of_ne]

/-- Settles O7: division and remainder by 32 cut the operand at bit 5, and the mask has the bit of the remainder. -/
theorem indexDatapathSelectsOneBit : Obligations.IndexDatapathSelectsOneBit := by
  intro n
  have hhigh : (n.extractLsb' 5 11).toNat = n.toNat / 32 := by
    rw [BitVec.extractLsb'_toNat, Nat.shiftRight_eq_div_pow]
    omega
  have hlow : (n.extractLsb' 0 5).toNat = n.toNat % 32 := by
    rw [BitVec.extractLsb'_toNat, Nat.shiftRight_zero]
  refine ⟨rfl, hhigh.symm, fun h => ?_, rfl, hlow.symm, rfl, fun b _ => mask_getLsbD _ b, fun h => ?_⟩
  · rw [wordIndex_eq]
    omega
  · rw [mask_eq, h]
    rfl

end Sys2Proof.Machine
end

/-! GET, SET and SWAP on an IDLE unit, by the answers of the index check (R103, R104, R110, R120). -/
section
namespace Sys2Proof.Machine

theorem exec_get_eq {s : State} (hidle : s.mode = .idle) (N : Operand) :
    exec (.get N) s = withIndexedWord N s fun w => s.respond .ok (w &&& mask N.toNat) :=
  whenIdle_idle hidle _

theorem exec_set_eq {s : State} (hidle : s.mode = .idle) (N : Operand) :
    exec (.set N) s = withIndexedWord N s fun w =>
      (s.setWord (wordIndex N.toNat) (w ||| mask N.toNat)).respond .ok 0 :=
  whenIdle_idle hidle _

theorem exec_swap_eq {s : State} (hidle : s.mode = .idle) (N : Operand) :
    exec (.swap N) s = withIndexedWord N s fun w =>
      (s.setWord (wordIndex N.toNat) (w ^^^ mask N.toNat)).respond .ok 0 :=
  whenIdle_idle hidle _

theorem checkIndex_not_constructed {s : State} (hvalid : s.valid = false) (N : Operand) :
    checkIndex N s = some .notConstructed := by
  simp [checkIndex, hvalid]

theorem checkIndex_out_of_range {N : Operand} {s : State} (hvalid : s.valid = true) (hN : s.size.toNat ≤ N.toNat) :
    checkIndex N s = some .indexOutOfRange := by
  simp [checkIndex, hvalid, hN]

theorem checkIndex_accepted {N : Operand} {s : State} (hvalid : s.valid = true) (hN : N.toNat < s.size.toNat) :
    checkIndex N s = none := by
  simp [checkIndex, hvalid, hN]

/-- An index below a legal SIZE takes its effect on a word that exists (R103). -/
theorem withIndexedWord_accepted {N : Operand} {s : State} (hvalid : s.valid = true) (hN : N.toNat < s.size.toNat)
    (hlegal : s.size.toNat ∈ legalSizes) (effect : Word → State) :
    ∃ k : Fin 8, k.val = N.toNat / 32 ∧ withIndexedWord N s effect = .next (effect (s.words.get k)) := by
  have hle := (legal_le hlegal).2
  have hk : wordIndex N.toNat < 8 := by rw [wordIndex_eq]; omega
  exact ⟨⟨_, hk⟩, rfl, by simp [withIndexedWord, checkIndex_accepted hvalid hN, word?_of_lt s hk]⟩

theorem withIndexedWord_not_constructed {s : State} (hvalid : s.valid = false) (N : Operand)
    (effect : Word → State) : withIndexedWord N s effect = .next (s.answered 4 (BitVec.ofNat 32 N.toNat)) := by
  rw [withIndexedWord_refused (checkIndex_not_constructed hvalid N), BitVec.ofNat_toNat]
  rfl

theorem withIndexedWord_out_of_range {N : Operand} {s : State} (hvalid : s.valid = true)
    (hN : s.size.toNat ≤ N.toNat) (effect : Word → State) :
    withIndexedWord N s effect = .next (s.answered 3 (BitVec.ofNat 32 N.toNat)) := by
  rw [withIndexedWord_refused (checkIndex_out_of_range hvalid hN), BitVec.ofNat_toNat]
  rfl

/-- A word write and its response, in the claims' words. -/
theorem setWord_respond_eq_answered (s : State) {k : Fin 8} {j : Nat} (hk : k.val = j) (v : Word) :
    (s.setWord j v).respond .ok 0 = ({ s with words := s.words.set k.val v k.isLt } : State).answered 0 0 := by
  subst hk
  have hwords : s.words.setIfInBounds k.val v = s.words.set k.val v k.isLt := by
    ext i hi
    simp [Vector.getElem_set, Vector.getElem_setIfInBounds]
  rw [respond_eq_answered, State.setWord, hwords]
  rfl

/-- A command that is an index access while IDLE meets the clauses R104, R110 and R120 share. -/
theorem exec_access_rule {i : Instr} {N : Operand} {s : State} {effect : Word → State}
    (hexec : s.mode = .idle → exec i s = withIndexedWord N s effect) :
    (s.mode = .idle → s.valid = false → exec i s = .next (s.answered 4 (BitVec.ofNat 32 N.toNat))) ∧
    (s.mode = .idle → s.valid = true → s.size.toNat ≤ N.toNat →
      exec i s = .next (s.answered 3 (BitVec.ofNat 32 N.toNat))) ∧
    (s.mode = .idle → s.valid = true → N.toNat < s.size.toNat → s.size.toNat ∈ legalSizes →
      ∃ k : Fin 8, k.val = N.toNat / 32 ∧ exec i s = .next (effect (s.words.get k))) := by
  refine ⟨fun hidle hvalid => ?_, fun hidle hvalid hN => ?_, fun hidle hvalid hN hlegal => ?_⟩ <;> rw [hexec hidle]
  · exact withIndexedWord_not_constructed hvalid N effect
  · exact withIndexedWord_out_of_range hvalid hN effect
  · exact withIndexedWord_accepted hvalid hN hlegal effect

/-- Settles O13: GET is an index access whose effect is the response with the masked word. -/
theorem getFollowsItsRule : Obligations.GetFollowsItsRule := fun N s =>
  ⟨by rw [BitVec.ofNat_toNat]; rfl, heldWhileDumping s, exec_access_rule fun hidle => exec_get_eq hidle N⟩

/-- Settles O17: SET is an index access whose effect is a word write and the response. -/
theorem setFollowsItsRule : Obligations.SetFollowsItsRule := by
  intro N s
  obtain ⟨hinvalid, hrange, haccepted⟩ := exec_access_rule fun hidle => exec_set_eq (s := s) hidle N
  refine ⟨by rw [BitVec.ofNat_toNat]; rfl, heldWhileDumping s, hinvalid, hrange, fun hidle hvalid hN hlegal => ?_⟩
  obtain ⟨k, hk, h⟩ := haccepted hidle hvalid hN hlegal
  exact ⟨k, hk, h.trans (congrArg _ (setWord_respond_eq_answered s hk _))⟩

/-- Settles O20: SWAP is an index access whose effect is a word write and the response. -/
theorem swapFollowsItsRule : Obligations.SwapFollowsItsRule := by
  intro N s
  obtain ⟨hinvalid, hrange, haccepted⟩ := exec_access_rule fun hidle => exec_swap_eq (s := s) hidle N
  refine ⟨by rw [BitVec.ofNat_toNat]; rfl, heldWhileDumping s, hinvalid, hrange, fun hidle hvalid hN hlegal => ?_⟩
  obtain ⟨k, hk, h⟩ := haccepted hidle hvalid hN hlegal
  exact ⟨k, hk, h.trans (congrArg _ (setWord_respond_eq_answered s hk _))⟩

end Sys2Proof.Machine
end

/-! GET, SET and SWAP in terms of bits: what an accepted access answers, writes and leaves (R42, R102, R105). -/
section
namespace Sys2Proof.Machine

/-- The unit accepts a GET, SET or SWAP of the index `N` (R103, R220). -/
structure Addressable (N : Operand) (s : State) : Prop where
  idle : s.mode = .idle
  valid : s.valid = true
  below : N.toNat < s.size.toNat
  legal : s.size.toNat ∈ legalSizes

/-- The registers that decide acceptance stay: MODE, VALID and SIZE (R20, R21, R27). -/
structure SameInstance (s t : State) : Prop where
  mode : t.mode = s.mode
  valid : t.valid = s.valid
  size : t.size = s.size

/-- `t` is `s` with bit `n` of the store made `b`, after the response (OK, 0). -/
structure BitWritten (n : Nat) (b : Bool) (s t : State) : Prop where
  registers : t = ({ s with words := t.words } : State).answered 0 0
  written : t.bitRead? n = some b
  others : ∀ p, p ≠ n → t.bitRead? p = s.bitRead? p

theorem Addressable.of_sameInstance {N : Operand} {s t : State} (h : Addressable N s) (hst : SameInstance s t) :
    Addressable N t where
  idle := hst.mode.trans h.idle
  valid := hst.valid.trans h.valid
  below := hst.size ▸ h.below
  legal := hst.size ▸ h.legal

theorem Addressable.lt {N : Operand} {s : State} (h : Addressable N s) : N.toNat < 256 :=
  h.below.trans_le (legal_le h.legal).2

theorem Addressable.word {N : Operand} {s : State} (h : Addressable N s) (effect : Word → State) :
    ∃ k : Fin 8, k.val = N.toNat / 32 ∧ withIndexedWord N s effect = .next (effect (s.words.get k)) :=
  withIndexedWord_accepted h.valid h.below h.legal effect

theorem sameInstance_respond (s : State) (st : Status) (d : Word) : SameInstance s (s.respond st d) :=
  ⟨rfl, rfl, rfl⟩

theorem BitWritten.sameInstance {n : Nat} {b : Bool} {s t : State} (h : BitWritten n b s t) : SameInstance s t where
  mode := (congrArg State.mode h.registers).trans rfl
  valid := (congrArg State.valid h.registers).trans rfl
  size := (congrArg State.size h.registers).trans rfl

/-- A store is its bits (R41, R42). -/
theorem words_eq_of_bits {s t : State} (h : ∀ p, s.bitRead? p = t.bitRead? p) : s.words = t.words := by
  ext i hi : 1
  apply BitVec.eq_of_getLsbD_eq
  intro b hb
  have hbit := h (32 * i + b)
  rw [bitRead?_eq_getLsbD s ⟨i, hi⟩ hb, bitRead?_eq_getLsbD t ⟨i, hi⟩ hb] at hbit
  exact Option.some.inj hbit

/-- The bit of an index in the word that holds it (R42). -/
theorem bitRead?_of_word (s : State) {k : Fin 8} {n : Nat} (hk : k.val = n / 32) :
    s.bitRead? n = some ((s.words.get k).getLsbD (n % 32)) := by
  rw [← bitRead?_eq_getLsbD s k (Nat.mod_lt n (by decide)), hk, Nat.div_add_mod]

theorem bitRead?_setWord_self (s : State) {k : Fin 8} {n : Nat} (hk : k.val = n / 32) (v : Word) :
    (s.setWord (wordIndex n) v).bitRead? n = some (v.getLsbD (n % 32)) := by
  have hlt : n / 32 < 8 := hk ▸ k.isLt
  simp [State.bitRead?, wordIndex_eq, bitOffset_eq, hlt]

/-- A word write that changes no offset but that of `n` writes bit `n`. -/
theorem bitWritten_setWord {s : State} {k : Fin 8} {v : Word} {n : Nat} (hk : k.val = n / 32)
    (hv : ∀ b, b ≠ n % 32 → v.getLsbD b = (s.words.get k).getLsbD b) :
    BitWritten n (v.getLsbD (n % 32)) s ((s.setWord (wordIndex n) v).respond .ok 0) where
  registers := rfl
  written := bitRead?_setWord_self s hk v
  others p hp := by
    rw [bitRead?_respond, wordIndex_eq, ← hk]
    exact bitRead?_setWord_of_ne hk hv hp

/-- GET answers the mask or 0 by the bit (R105). -/
theorem Addressable.exec_get {N : Operand} {s : State} {b : Bool} (h : Addressable N s)
    (hbit : s.bitRead? N.toNat = some b) :
    exec (.get N) s = .next (s.respond .ok (if b then mask N.toNat else 0)) := by
  obtain ⟨k, hk, hexec⟩ := h.word fun w => s.respond .ok (w &&& mask N.toNat)
  rw [bitRead?_of_word s hk, Option.some.injEq] at hbit
  rw [exec_get_eq h.idle, hexec, and_mask, hbit]

/-- SET writes 1 to the bit (R110). -/
theorem Addressable.exec_set {N : Operand} {s : State} (h : Addressable N s) :
    ∃ t, exec (.set N) s = .next t ∧ BitWritten N.toNat true s t := by
  obtain ⟨k, hk, hexec⟩ := h.word fun w => (s.setWord (wordIndex N.toNat) (w ||| mask N.toNat)).respond .ok 0
  refine ⟨_, (exec_set_eq h.idle N).trans hexec, ?_⟩
  have hw := bitWritten_setWord (s := s) (v := s.words.get k ||| mask N.toNat) hk
    fun b hb => by simp [mask_getLsbD_of_ne hb]
  simpa using hw

/-- SWAP writes the opposite of the bit (R120). -/
theorem Addressable.exec_swap {N : Operand} {s : State} {b : Bool} (h : Addressable N s)
    (hbit : s.bitRead? N.toNat = some b) :
    ∃ t, exec (.swap N) s = .next t ∧ BitWritten N.toNat (!b) s t := by
  obtain ⟨k, hk, hexec⟩ := h.word fun w => (s.setWord (wordIndex N.toNat) (w ^^^ mask N.toNat)).respond .ok 0
  refine ⟨_, (exec_swap_eq h.idle N).trans hexec, ?_⟩
  rw [bitRead?_of_word s hk, Option.some.injEq] at hbit
  have hw := bitWritten_setWord (s := s) (v := s.words.get k ^^^ mask N.toNat) hk
    fun b hb => by simp [mask_getLsbD_of_ne hb]
  simpa [hbit] using hw

/-- Settles O14: the datum is the mask or 0 by the bit, and the mask is not 0. -/
theorem getAnswersTheMaskedBit : Obligations.GetAnswersTheMaskedBit := by
  intro N s hidle hvalid hN hlegal
  have h : Addressable N s := ⟨hidle, hvalid, hN, hlegal⟩
  obtain ⟨b, hbit⟩ := bitRead?_isSome s h.lt
  refine ⟨_, b, h.exec_get hbit, hbit, rfl, ?_⟩
  cases b <;> simp [State.truthy, mask_ne_zero]

/-- Settles O18, by the bit that SET writes. -/
theorem setWritesOneBit : Obligations.SetWritesOneBit := by
  intro N s hidle hvalid hN hlegal
  obtain ⟨t, ht, hw⟩ := Addressable.exec_set ⟨hidle, hvalid, hN, hlegal⟩
  exact ⟨t, ht, hw.written, hw.others⟩

/-- Settles O21, by the bit that SWAP writes. -/
theorem swapInvertsOneBit : Obligations.SwapInvertsOneBit := by
  intro N s hidle hvalid hN hlegal
  have h : Addressable N s := ⟨hidle, hvalid, hN, hlegal⟩
  obtain ⟨b, hbit⟩ := bitRead?_isSome s h.lt
  obtain ⟨t, ht, hw⟩ := h.exec_swap hbit
  exact ⟨t, b, ht, hbit, hw.written, hw.others⟩

/-- Two stores that agree at one position and at every other are the same. -/
theorem words_eq_of_bit_and_others {n : Nat} {s t : State} (hbit : t.bitRead? n = s.bitRead? n)
    (hothers : ∀ p, p ≠ n → t.bitRead? p = s.bitRead? p) : t.words = s.words := by
  apply words_eq_of_bits
  intro p
  by_cases hp : p = n
  · exact hp ▸ hbit
  · exact hothers p hp

/-- Settles O19: the second SET writes a bit that is 1 already, so its words are those of the first. -/
theorem setIsIdempotent : Obligations.SetIsIdempotent := by
  intro N s hidle hvalid hN hlegal
  have h : Addressable N s := ⟨hidle, hvalid, hN, hlegal⟩
  obtain ⟨t, ht, hst⟩ := h.exec_set
  obtain ⟨u, hu, htu⟩ := (h.of_sameInstance hst.sameInstance).exec_set
  have hwords := words_eq_of_bit_and_others (htu.written.trans hst.written.symm) htu.others
  have hregisters := htu.registers
  rw [hwords] at hregisters
  exact ⟨t, ht, congrArg State.rspStatus hst.registers, congrArg State.rspData hst.registers, hregisters ▸ hu⟩

end Sys2Proof.Machine
end

/-! What a GET, SET or SWAP that names another index, or only reads, leaves; GET's answers; pairs of commands (R106,
R121, R122). -/
section
namespace Sys2Proof.Machine

/-- A command carried out is its own word accepted. -/
theorem accepted_of_exec {i : Instr} {s t : State} (hidle : s.mode = .idle) (h : exec i s = .next t) :
    Accepted (encode i) s t :=
  accepted_of_acceptWord hidle ((acceptWord_legal (decode_encode i) s).trans h)

/-- GET only responds (R106). -/
theorem respond_of_exec_get {N : Operand} {s t : State} (hidle : s.mode = .idle) (h : exec (.get N) s = .next t) :
    ∃ st d, t = s.respond st d := by
  cases accepted_of_exec hidle h with
  | answer st d => exact ⟨st, d, rfl⟩
  | construct S hw | clear hw | dump hw => rw [decode_encode] at hw; cases hw
  | write i N v hw hi => rw [decode_encode] at hw; rcases hi with rfl | rfl <;> cases hw

/-- GET answers alike in IDLE states with the same VALID, SIZE and store (R46, R106). -/
theorem exec_get_answers_alike {s t : State} (hidle : s.mode = .idle)
    (hlegal : s.valid = true → s.size.toNat ∈ legalSizes) (hst : SameInstance s t) (hwords : t.words = s.words)
    (N : Operand) : ∃ g h, exec (.get N) s = .next g ∧ exec (.get N) t = .next h ∧
      h.rspStatus = g.rspStatus ∧ h.rspData = g.rspData := by
  obtain ⟨g, hg⟩ := exec_goes_on hlegal (.get N)
  obtain ⟨h, hh⟩ := exec_goes_on (s := t) (by rwa [hst.valid, hst.size]) (.get N)
  exact ⟨g, h, hg, hh, getSeesOnlyTheAddressedBit N t s h g (hst.mode.trans hidle) hidle hst.valid hst.size
    (bitRead?_congr hwords _) hh hg⟩

/-- Settles O15: the first GET only responds, so the second reads the same VALID, SIZE and store. -/
theorem getIsAPureRead : Obligations.GetIsAPureRead := by
  intro N s hidle hlegal
  obtain ⟨t, ht⟩ := exec_goes_on hlegal (.get N)
  obtain ⟨st, d, rfl⟩ := respond_of_exec_get hidle ht
  obtain ⟨g, u, hg, hu, hanswer⟩ := exec_get_answers_alike hidle hlegal (sameInstance_respond s st d) rfl N
  obtain rfl : s.respond st d = g := Host.Outcome.next.inj (ht.symm.trans hg)
  exact ⟨_, u, ht, hu, rfl, hanswer⟩

theorem SameInstance.trans {s t u : State} (hst : SameInstance s t) (htu : SameInstance t u) : SameInstance s u where
  mode := htu.mode.trans hst.mode
  valid := htu.valid.trans hst.valid
  size := htu.size.trans hst.size

/-- Two SWAPs of an index complete and leave VALID, SIZE and the store, whether the index is accepted or refused
(R121). -/
theorem exec_swap_swap {N : Operand} {s : State} (hidle : s.mode = .idle) (hvalid : s.valid = true)
    (hlegal : s.size.toNat ∈ legalSizes) :
    ∃ t u, exec (.swap N) s = .next t ∧ exec (.swap N) t = .next u ∧ SameInstance s u ∧ u.words = s.words ∧
      (s.size.toNat ≤ N.toNat → t.rspStatus = 3 ∧ u.rspStatus = 3 ∧ t.words = s.words) := by
  rcases Nat.lt_or_ge N.toNat s.size.toNat with hN | hN
  · have h : Addressable N s := ⟨hidle, hvalid, hN, hlegal⟩
    obtain ⟨b, hbit⟩ := bitRead?_isSome s h.lt
    obtain ⟨t, ht, hst⟩ := h.exec_swap hbit
    obtain ⟨u, hu, htu⟩ := (h.of_sameInstance hst.sameInstance).exec_swap hst.written
    rw [Bool.not_not] at htu
    have hothers : ∀ p, p ≠ N.toNat → u.bitRead? p = s.bitRead? p := fun p hp =>
      (htu.others p hp).trans (hst.others p hp)
    exact ⟨t, u, ht, hu, hst.sameInstance.trans htu.sameInstance,
      words_eq_of_bit_and_others (htu.written.trans hbit.symm) hothers, fun hge => absurd hN (by omega)⟩
  · have hrefused : ∀ r : State, SameInstance s r →
        exec (.swap N) r = .next (r.answered 3 (BitVec.ofNat 32 N.toNat)) :=
      fun r hr => (exec_swap_eq (hr.mode.trans hidle) N).trans
        (withIndexedWord_out_of_range (hr.valid.trans hvalid) (hr.size ▸ hN) _)
    exact ⟨_, _, hrefused s ⟨rfl, rfl, rfl⟩, hrefused _ ⟨rfl, rfl, rfl⟩, ⟨rfl, rfl, rfl⟩, rfl,
      fun _ => ⟨rfl, rfl, rfl⟩⟩

/-- Settles O22: the pair leaves VALID, SIZE and the store, which are all that GET reads. -/
theorem swapTwiceRestoresTheStore : Obligations.SwapTwiceRestoresTheStore := by
  intro N s hidle hvalid hlegal
  obtain ⟨t, u, ht, hu, hsame, hwords, hrefused⟩ := exec_swap_swap (N := N) hidle hvalid hlegal
  obtain ⟨g, h, hg, hh, hstatus, hdata⟩ := exec_get_answers_alike hidle (fun _ => hlegal) hsame hwords N
  exact ⟨t, u, g, h, ht, hu, hwords, hg, hh, hstatus, hdata, hrefused⟩

/-- The command is a GET, or a SET or SWAP of another index than `M`. -/
def SparesBit (M : Operand) (i : Instr) : Prop :=
  (∃ x, i = .get x) ∨ ∃ x, (i = .set x ∨ i = .swap x) ∧ x ≠ M

/-- A command that spares bit `M` leaves it, and MODE, VALID and SIZE, as they were (R122). -/
theorem SparesBit.exec_keeps {M : Operand} {i : Instr} {s t : State} (hi : SparesBit M i) (hidle : s.mode = .idle)
    (h : exec i s = .next t) : SameInstance s t ∧ t.bitRead? M.toNat = s.bitRead? M.toNat := by
  cases accepted_of_exec hidle h with
  | answer st d => exact ⟨sameInstance_respond s st d, rfl⟩
  | construct S hw | clear hw | dump hw =>
    rw [decode_encode] at hw
    rcases hi with ⟨x, rfl⟩ | ⟨x, rfl | rfl, -⟩ <;> cases hw
  | write j N v hw hj _ _ hframe =>
    rw [decode_encode] at hw
    cases hw
    refine ⟨⟨rfl, rfl, rfl⟩, hframe _ (BitVec.toNat_ne.1 ?_)⟩
    rcases hi with ⟨x, rfl⟩ | ⟨x, hx, hne⟩
    · simp at hj
    · obtain rfl : x = N := by rcases hx with rfl | rfl <;> simpa using hj
      exact hne.symm

/-- Settles O23: the second write of a pair starts from the bit the first wrote, and an access of `N` spares every other
bit. -/
theorem setAndSwapMeetOnlyInTheirBit : Obligations.SetAndSwapMeetOnlyInTheirBit := by
  intro N s hidle hvalid hlegal hN
  have h : Addressable N s := ⟨hidle, hvalid, hN, hlegal⟩
  refine ⟨?_, ?_, fun M _ hne i hi => ?_⟩
  · obtain ⟨t, ht, hst⟩ := h.exec_set
    obtain ⟨u, hu, htu⟩ := (h.of_sameInstance hst.sameInstance).exec_swap hst.written
    exact ⟨u, by rw [execAll_cons ht, execAll_cons hu, execAll_nil], htu.written⟩
  · obtain ⟨b, hbit⟩ := bitRead?_isSome s h.lt
    obtain ⟨t, ht, hst⟩ := h.exec_swap hbit
    obtain ⟨u, hu, htu⟩ := (h.of_sameInstance hst.sameInstance).exec_set
    exact ⟨u, by rw [execAll_cons ht, execAll_cons hu, execAll_nil], htu.written⟩
  · have hspares : SparesBit M i := hi.imp (fun h => ⟨N, h⟩) fun h => ⟨N, h, hne⟩
    obtain ⟨t, ht⟩ := exec_goes_on (fun _ => hlegal) i
    exact ⟨t, ht, (hspares.exec_keeps hidle ht).2⟩

end Sys2Proof.Machine
end

/-! The set/get round trip (R113): a new bitset reads 0 everywhere, and a list of commands that spare a bit leaves
it. -/
section
namespace Sys2Proof.Machine

/-- A list of commands that spare bit `M` leaves it, and MODE, VALID and SIZE, as they were (R112, R122). -/
theorem execAll_keeps {M : Operand} : ∀ {cmds : List Instr} {s u : State}, (∀ c ∈ cmds, SparesBit M c) →
    s.mode = .idle → execAll cmds s = .next u → SameInstance s u ∧ u.bitRead? M.toNat = s.bitRead? M.toNat
  | [], _, _, _, _, h => by cases h; exact ⟨⟨rfl, rfl, rfl⟩, rfl⟩
  | c :: cmds, s, u, hspares, hidle, h => by
    obtain ⟨t, ht, hrest⟩ := execAll_cons_inv h
    obtain ⟨hst, hbit⟩ := (hspares c List.mem_cons_self).exec_keeps hidle ht
    obtain ⟨htu, hbits⟩ :=
      execAll_keeps (fun d hd => hspares d (List.mem_cons_of_mem c hd)) (hst.mode.trans hidle) hrest
    exact ⟨hst.trans htu, hbits.trans hbit⟩

/-- The unit is IDLE and holds a bitset of a legal size whose every bit is 0. -/
structure NewInstance (s : State) : Prop where
  idle : s.mode = .idle
  valid : s.valid = true
  legal : s.size.toNat ∈ legalSizes
  zero : ∀ p, p < 256 → s.bitRead? p = some false

/-- A CLEAR that answers OK leaves such a bitset (R140). -/
theorem newInstance_of_exec_clear {s t : State} (hidle : s.mode = .idle)
    (hlegal : s.valid = true → s.size.toNat ∈ legalSizes) (h : exec .clear s = .next t) (hok : t.rspStatus = 0) :
    NewInstance t := by
  rw [exec, execClear, whenIdle_idle hidle] at h
  cases hvalid : s.valid with
  | false => rw [whenConstructed_invalid hvalid] at h; cases h; cases hok
  | true =>
    rw [whenConstructed_valid hvalid] at h
    cases h
    exact ⟨hidle, hvalid, hlegal hvalid, fun _ hp => bitRead?_zeroWords s hp⟩

/-- A CONSTRUCT that answers OK leaves such a bitset (R84). -/
theorem newInstance_of_exec_construct {S : Operand} {s t : State} (hidle : s.mode = .idle)
    (h : exec (.construct S) s = .next t) (hok : t.rspStatus = 0) : NewInstance t := by
  rcases checkSize_cases S with ⟨_, hc⟩ | ⟨_, _, hc⟩ | ⟨hpow, hle, hc⟩
  · rw [exec_construct_refused hidle hc] at h; cases h; cases hok
  · rw [exec_construct_refused hidle hc] at h; cases h; cases hok
  · rw [exec_construct_accepted hidle hc] at h
    cases h
    refine ⟨hidle, rfl, ?_, fun _ hp => bitRead?_zeroWords (s.setInstance (S.setWidth 9)) hp⟩
    rw [respond_size, zeroWords_size, setInstance_size, toNat_setWidth_of_le hle]
    exact legalSizes_of_isPow2 hpow hle

/-- Settles O24: bit `M` is 0 in the new bitset, the list and SET `N` spare it, and SET `N` writes bit `N`. -/
theorem roundTripAfterConstructOrClear : Obligations.RoundTripAfterConstructOrClear := by
  intro first cmds N M s t u hidle hlegal hfirst ht hok hcmds hu hN hM hne
  have hnew : NewInstance t := by
    rcases hfirst with rfl | ⟨S, rfl⟩
    · exact newInstance_of_exec_clear hidle hlegal ht hok
    · exact newInstance_of_exec_construct hidle ht hok
  obtain ⟨htu, hbit⟩ := execAll_keeps hcmds hnew.idle hu
  have addressable : ∀ x : Operand, x.toNat < u.size.toNat → Addressable x u := fun x hx =>
    ⟨htu.mode.trans hnew.idle, htu.valid.trans hnew.valid, hx, htu.size ▸ hnew.legal⟩
  obtain ⟨v, hv, huv⟩ := (addressable N hN).exec_set
  have hMu : u.bitRead? M.toNat = some false := hbit.trans (hnew.zero _ (addressable M hM).lt)
  have hMv : v.bitRead? M.toNat = some false := (huv.others _ (BitVec.toNat_ne.1 hne.symm)).trans hMu
  have hNv : Addressable N v := (addressable N hN).of_sameInstance huv.sameInstance
  have hMv' : Addressable M v := (addressable M hM).of_sameInstance huv.sameInstance
  exact ⟨v, _, _, hv, hNv.exec_get huv.written, hMv'.exec_get hMv, rfl, rfl, mask_ne_zero N.toNat, rfl, rfl⟩

end Sys2Proof.Machine
end

/-! CLEAR (R140): its effect on an IDLE unit, and that CONSTRUCT of the same size has the same (R143). -/
section
namespace Sys2Proof.Machine

/-- CLEAR and DUMP carry no operand (R64). -/
theorem acceptWord_operand_not_zero {w : Word} (hopc : w.toNat / 2 ^ 28 = 5 ∨ w.toNat / 2 ^ 28 = 6)
    (hopnd : w.toNat % 2 ^ 16 ≠ 0) (s : State) : acceptWord w s = .next (s.answered 5 w) := by
  obtain ⟨hillegal, hanswer⟩ := illegalWordIsRefused w
  exact hanswer (hillegal.2 (.inr (.inr ⟨hopc, hopnd⟩))) s

theorem exec_clear_not_constructed {s : State} (hidle : s.mode = .idle) (hvalid : s.valid = false) :
    exec .clear s = .next (s.respond .notConstructed 0) :=
  (whenIdle_idle hidle _).trans (whenConstructed_invalid hvalid 0 _)

theorem exec_clear_constructed {s : State} (hidle : s.mode = .idle) (hvalid : s.valid = true) :
    exec .clear s = .next (s.zeroWords.respond .ok 0) :=
  (whenIdle_idle hidle _).trans (whenConstructed_valid hvalid 0 _)

/-- Settles O25, by CLEAR's one effect with an instance and its one answer without. -/
theorem clearFollowsItsRule : Obligations.ClearFollowsItsRule :=
  ⟨rfl, fun _ hopc hopnd s => acceptWord_operand_not_zero (.inl hopc) hopnd s,
    fun s => ⟨heldWhileDumping s, exec_clear_not_constructed, exec_clear_constructed⟩⟩

/-- An instance already has the VALID and SIZE that CONSTRUCT of its size writes (R84). -/
theorem setInstance_same {s : State} (hvalid : s.valid = true) : s.setInstance s.size = s := by
  cases s
  cases hvalid
  rfl

/-- A SIZE register fits the operand field (R21, R62). -/
theorem toNat_operand_of_size (n : BitVec 9) : (BitVec.ofNat 16 n.toNat).toNat = n.toNat := by
  rw [BitVec.toNat_ofNat]
  exact Nat.mod_eq_of_lt (by omega)

/-- Settles O27: CONSTRUCT of the size that stands zeroes the words, as CLEAR does, and writes VALID and SIZE as they
were. -/
theorem clearEqualsConstructOfTheSameSize : Obligations.ClearEqualsConstructOfTheSameSize := by
  intro s hidle hvalid hlegal
  have hoperand := toNat_operand_of_size s.size
  have hcheck := checkSize_legal (hoperand.symm ▸ hlegal)
  have hle : (BitVec.ofNat 16 s.size.toNat).toNat ≤ 256 := hoperand.trans_le (legal_le hlegal).2
  have hsize : (BitVec.ofNat 16 s.size.toNat).setWidth 9 = s.size :=
    BitVec.eq_of_toNat_eq ((toNat_setWidth_of_le hle).trans hoperand)
  refine ⟨_, exec_clear_constructed hidle hvalid, ?_⟩
  rw [exec_construct_accepted hidle hcheck, hsize, setInstance_same hvalid]

end Sys2Proof.Machine
end

/-! The renderer's rows one after another (R151, R156): from an accepted DUMP on, `k` steps emit the first `k` rows of
the grid of the store. -/
section
namespace Sys2Proof.Machine

theorem exec_dump_constructed {s : State} (hidle : s.mode = .idle) (hvalid : s.valid = true) :
    exec .dump s = .next ((s.setMode .dumping).setDumpI 0) :=
  (whenIdle_idle hidle _).trans (whenConstructed_valid hvalid 0 _)

/-- A run that ends with a step that goes on. -/
theorem steps_succ_last : ∀ {k : Nat} {s t u : State}, steps k s = .next t → step t = .next u →
    steps (k + 1) s = .next u
  | 0, s, t, u, hrun, hlast => by
    cases hrun
    exact steps_succ hlast 0
  | k + 1, s, t, u, hrun, hlast => by
    cases hstep : step s with
    | next v =>
      rw [steps_succ hstep] at hrun ⊢
      exact steps_succ_last hrun hlast
    | fault r => simp [steps, hstep] at hrun
    | refused r => simp [steps, hstep] at hrun

/-- The renderer reads the row of the grid, where the row lies inside the store (R156). -/
theorem bitsFrom?_eq_gridRow {s : State} {i : Nat} (h : i + s.slide ≤ 256) :
    s.bitsFrom? i s.slide = some (s.gridRow i).bits := by
  obtain ⟨bits, hbits, hlength, hget⟩ := bitsFrom?_of_le s s.slide i h
  rw [hbits, Option.some.injEq]
  apply List.ext_getElem?
  intro j
  rcases Nat.lt_or_ge j s.slide with hj | hj
  · obtain ⟨b, hb⟩ := bitRead?_isSome s (p := i + j) (by omega)
    simp [hget j hj, State.gridRow, hj, hb]
  · simp [State.gridRow, hlength, hj]

/-- The row step in terms of the grid (R151, R156). -/
theorem unitStep_emits_gridRow {s : State} {i : Nat} (hdumping : s.mode = .dumping)
    (hlegal : s.size.toNat ∈ legalSizes) (hi : s.dumpI.toNat = i) (hlt : i < s.size.toNat)
    (hrow : i + s.slide ≤ 256) :
    unitStep s = .next ((s.emit (s.gridRow i).line).setDumpI (BitVec.ofNat 9 (i + s.slide))) := by
  subst hi
  rw [unitStep, hdumping]
  exact renderStep_of_lt hlegal hlt (bitsFrom?_eq_gridRow hrow)

/-- Each row of the grid begins below SIZE and ends inside the store (R159). -/
theorem row_bounds_of_legal : ∀ n ∈ legalSizes, ∀ r < rowCount n (2 * Nat.log2 n),
    r * (2 * Nat.log2 n) < n ∧ r * (2 * Nat.log2 n) + 2 * Nat.log2 n ≤ 256 := by decide

/-- At SIZE 1 the row width is 0, and so every row begins at 0 (R160). -/
theorem row_bounds {s : State} {r : Nat} (hlegal : s.size.toNat ∈ legalSizes)
    (hr : s.size.toNat = 1 ∨ r < s.rows) : r * s.slide < s.size.toNat ∧ r * s.slide + s.slide ≤ 256 := by
  rcases hr with hone | hr
  · have hslide : s.slide = 0 := by rw [State.slide, hone]; decide
    simp [hslide, hone]
  · exact row_bounds_of_legal _ hlegal r hr

theorem gridText_succ (s : State) (k : Nat) : s.gridText (k + 1) = s.gridText k ++ (s.gridRow (k * s.slide)).line := by
  simp [State.gridText, List.range_succ]

theorem gridText_zero (s : State) : s.gridText 0 = [] := rfl

theorem emit_nil (s : State) : s.emit [] = s := by
  simp [State.emit]

theorem emit_emit (s : State) (a b : List Byte) : (s.emit a).emit b = s.emit (a ++ b) := by
  simp [State.emit]

/-- From the acceptance of a DUMP on, `k` steps emit the first `k` rows of the grid and leave DUMP_I at the next one; at
SIZE 1 for every `k` (R151, R156, R160). -/
theorem steps_emit_gridText {s : State} (hlegal : s.size.toNat ∈ legalSizes) (hreset : s.resetIn = []) :
    ∀ k, (s.size.toNat = 1 ∨ k ≤ s.rows) → steps k ((s.setMode .dumping).setDumpI 0) =
      .next (((s.setMode .dumping).emit (s.gridText k)).setDumpI (BitVec.ofNat 9 (k * s.slide)))
  | 0, _ => by
    rw [steps_zero, gridText_zero, emit_nil, Nat.zero_mul]
    rfl
  | k + 1, hk => by
    have hrun := steps_emit_gridText hlegal hreset k (hk.imp_right Nat.le_of_succ_le)
    obtain ⟨hlt, hrow⟩ := row_bounds hlegal (hk.imp_right Nat.lt_of_succ_le)
    have hoffset : (BitVec.ofNat 9 (k * s.slide)).toNat = k * s.slide := by
      rw [BitVec.toNat_ofNat]
      exact Nat.mod_eq_of_lt (by omega)
    rw [gridText_succ, ← emit_emit, Nat.succ_mul]
    apply steps_succ_last hrun
    rw [step_of_no_requests]
    · exact unitStep_emits_gridRow rfl hlegal hoffset hlt hrow
    · exact hreset

end Sys2Proof.Machine
end

/-! CLEAR seen through GET and DUMP (R142): a store of zeros answers 0 and renders 0. -/
section
namespace Sys2Proof.Machine

/-- A store of zeros has no 1 bit in any row, wherever the row begins. -/
theorem gridRow_of_zero {s : State} (hzero : ∀ p, p < 256 → s.bitRead? p = some false) (i : Nat) :
    s.gridRow i = ⟨i, List.replicate s.slide false⟩ := by
  have hbit : ∀ p, s.bitRead? p ≠ some true := by
    intro p
    rcases Nat.lt_or_ge p 256 with hp | hp
    · simp [hzero p hp]
    · have hword : 8 ≤ wordIndex p := by rw [wordIndex_eq]; omega
      simp [State.bitRead?, word?_of_ge s hword]
  simp [State.gridRow, hbit]

/-- A bitset of zeros answers (OK, 0) to every GET below SIZE (R104, R105). -/
theorem NewInstance.exec_get {s : State} (h : NewInstance s) {n : Operand} (hn : n.toNat < s.size.toNat) :
    exec (.get n) s = .next (s.answered 0 0) :=
  have haddr : Addressable n s := ⟨h.idle, h.valid, hn, h.legal⟩
  haddr.exec_get (h.zero _ haddr.lt)

/-- Settles O26: CLEAR leaves a bitset of zeros, and a DUMP emits the rows of the grid of its store. -/
theorem clearMakesEveryBitZero : Obligations.ClearMakesEveryBitZero := by
  intro s hidle hvalid hlegal
  have hclear := exec_clear_constructed hidle hvalid
  have hnew := newInstance_of_exec_clear hidle (fun _ => hlegal) hclear rfl
  refine ⟨_, hclear, rfl, fun n hn => hnew.exec_get hn, _, exec_dump_constructed hidle hvalid, fun k hk hreset => ?_⟩
  refine ⟨_, steps_emit_gridText (s := s.zeroWords.respond .ok 0) hlegal hreset k hk, ?_⟩
  simp only [State.gridText, gridRow_of_zero hnew.zero]
  rfl

end Sys2Proof.Machine
end

/-! DUMP and the steps of the renderer (R154 to R158): acceptance, the row step, the completion step, and what a
renderer step leaves unchanged. -/
section
namespace Sys2Proof.Machine

/-- Settles O43: every command's effect is taken only while IDLE. -/
theorem execWaitsWhileDumping : Obligations.ExecWaitsWhileDumping := by
  intro i s hdumping
  cases i <;> exact whenIdle_dumping hdumping _

theorem exec_dump_not_constructed {s : State} (hidle : s.mode = .idle) (hvalid : s.valid = false) :
    exec .dump s = .next (s.respond .notConstructed 0) :=
  (whenIdle_idle hidle _).trans (whenConstructed_invalid hvalid 0 _)

/-- While DUMPING the unit's step is the renderer's (R155). -/
theorem unitStep_of_dumping {s : State} (hdumping : s.mode = .dumping) : unitStep s = renderStep s := by
  simp [unitStep, hdumping]

theorem rendered_of_unitStep {s t : State} (hdumping : s.mode = .dumping) (h : unitStep s = .next t) :
    Rendered s t :=
  rendered_of_renderStep (unitStep_of_dumping hdumping ▸ h)

/-- The renderer answers only OK, and a row leaves the last response as it was (R156, R157). -/
theorem Rendered.rspStatus_unchanged_or_ok {s t : State} (h : Rendered s t) :
    t.rspStatus = s.rspStatus ∨ t.rspStatus = 0 := by
  cases h with
  | row => exact .inl rfl
  | done => exact .inr rfl

/-- Settles O28, by DUMP's one effect with an instance and its one answer without, and by what the renderer answers. -/
theorem dumpFollowsItsRule : Obligations.DumpFollowsItsRule :=
  ⟨rfl, fun _ hopc hopnd s => acceptWord_operand_not_zero (.inr hopc) hopnd s,
    fun s => ⟨heldWhileDumping s, exec_dump_not_constructed, exec_dump_constructed,
      fun hdumping _ h => (rendered_of_unitStep hdumping h).rspStatus_unchanged_or_ok⟩⟩

/-- Settles O36: neither a row nor the completion touches the host or the instance, and no step takes text away. -/
theorem dumpingHoldsCommandsAndStore : Obligations.DumpingHoldsCommandsAndStore := by
  intro s t hdumping h
  obtain ⟨hprogram, hpc, hvalid, hsize, hwords⟩ := (rendered_of_unitStep hdumping h).unchanged
  obtain ⟨-, htext, -⟩ := (unitMove_of_unitStep h).logs_grow
  exact ⟨hprogram, hpc, hwords, hsize, hvalid, htext⟩

/-- Settles O30: the row lies inside the store, so each of its positions is read. -/
theorem rendererEmitsOneRow : Obligations.RendererEmitsOneRow := by
  intro s h hdumping hlt
  obtain ⟨bits, hbits, hlength, hget⟩ := bitsFrom?_of_le s s.slide s.dumpI.toNat (h.row_le_store hdumping hlt)
  have hrow := renderStep_of_lt (h.legalSize_of_dumping hdumping) hlt hbits
  exact ⟨bits, hlength, hget, (unitStep_of_dumping hdumping).trans hrow⟩

/-- Settles O32: the row the step emits lies inside the store, whose positions from SIZE on hold 0. -/
theorem rendererReadsZeroPastSize : Obligations.RendererReadsZeroPastSize := by
  intro s j h hdumping hlt hj hpast
  have hrow := h.row_le_store hdumping hlt
  have hzero := h.storeZero (s.dumpI.toNat + j) hpast (by omega)
  obtain ⟨bits, hlength, hget, hstep⟩ := rendererEmitsOneRow s h hdumping hlt
  exact ⟨by omega, hzero, bits, hlength, (hget j hj).trans hzero, hstep⟩

/-- The row width is 0 only at SIZE 1 (R150). -/
theorem slide_ne_zero_of_two_le {s : State} (hlegal : s.size.toNat ∈ legalSizes) (htwo : 2 ≤ s.size.toNat) :
    s.slide ≠ 0 :=
  (by decide : ∀ n ∈ legalSizes, 2 ≤ n → 2 * Nat.log2 n ≠ 0) _ hlegal htwo

/-- The completion step of the unit (R157). -/
theorem unitStep_completes {s : State} (hdumping : s.mode = .dumping) (hlegal : s.size.toNat ∈ legalSizes)
    (htwo : 2 ≤ s.size.toNat) (hge : s.size.toNat ≤ s.dumpI.toNat) :
    unitStep s = .next ((s.setMode .idle).respond .ok (BitVec.ofNat 32 s.rows)) :=
  (unitStep_of_dumping hdumping).trans (renderStep_of_ge hlegal hge (slide_ne_zero_of_two_le hlegal htwo))

/-- Settles O31: from size 2 on the row width is not 0, so the step at or above SIZE is the completion. -/
theorem rendererCompletesAndAnswers : Obligations.RendererCompletesAndAnswers :=
  fun _ => unitStep_completes

end Sys2Proof.Machine
end

/-! The bytes of a line (R17, R152, R153), and the geometry of each legal size (R150, R159). -/
section
namespace Sys2Proof.Machine

/-- Enough fuel is as good as any other. -/
theorem decimalDigits_congr : ∀ {fuel fuel' n : Nat}, n < fuel → n < fuel' →
    decimalDigits fuel n = decimalDigits fuel' n
  | 0, _, _, h, _ => absurd h (Nat.not_lt_zero _)
  | _, 0, _, _, h => absurd h (Nat.not_lt_zero _)
  | fuel + 1, fuel' + 1, n, h, h' => by
    by_cases hten : n < 10
    · simp [decimalDigits, hten]
    · simp only [decimalDigits, hten, if_false]
      rw [decimalDigits_congr (by omega : n / 10 < fuel) (by omega : n / 10 < fuel')]

theorem dec_of_lt_ten {n : Nat} (h : n < 10) : dec n = [digitByte n] := by
  simp [dec, decimalDigits, h]

/-- The last digit is written after the others. -/
theorem dec_of_ten_le {n : Nat} (h : 10 ≤ n) : dec n = dec (n / 10) ++ [digitByte (n % 10)] := by
  have hfuel := decimalDigits_congr (by omega : n / 10 < n) (Nat.lt_succ_self (n / 10))
  rw [dec, decimalDigits, if_neg (Nat.not_lt.2 h), hfuel, List.map_append]
  rfl

/-- The label of an offset of at most three digits, by the number of its digits (R153). -/
def labelBytes (i : Nat) : List Byte :=
  if i < 10 then [0x20#8, 0x20#8, BitVec.ofNat 8 (0x30 + i)]
  else if i < 100 then [0x20#8, BitVec.ofNat 8 (0x30 + i / 10), BitVec.ofNat 8 (0x30 + i % 10)]
  else [BitVec.ofNat 8 (0x30 + i / 100), BitVec.ofNat 8 (0x30 + i / 10 % 10), BitVec.ofNat 8 (0x30 + i % 10)]

theorem labelBytes_length (i : Nat) : (labelBytes i).length = 3 := by
  unfold labelBytes
  split
  · rfl
  · split <;> rfl

/-- An offset of one, two or three digits, with two, one or no space before it (R17, R153). -/
theorem pad_dec {i : Nat} (h : i < 1000) : pad (dec i) 3 = labelBytes i := by
  unfold labelBytes
  split
  · next hone => rw [dec_of_lt_ten hone]; rfl
  · next hone =>
    rw [dec_of_ten_le (Nat.not_lt.1 hone)]
    split
    · next htwo => rw [dec_of_lt_ten (by omega : i / 10 < 10)]; rfl
    · next htwo =>
      rw [dec_of_ten_le (by omega : 10 ≤ i / 10), Nat.div_div_eq_div_mul, dec_of_lt_ten (by omega)]
      rfl

theorem token_eq (b : Bool) : token b = if b then 0x31#8 else 0x30#8 := by
  cases b <;> rfl

/-- The tokens of a row, in the numbers of the ASCII code (R152). -/
theorem tokens_eq (bits : List Bool) : bits.flatMap (fun b => [spaceByte, token b]) =
    (bits.map fun b => [0x20#8, if b then 0x31#8 else 0x30#8]).flatten := by
  simp only [List.flatMap_def, token_eq]
  rfl

/-- Each token takes two bytes. -/
theorem tokens_length (bits : List Bool) :
    (bits.flatMap fun b => [spaceByte, token b]).length = 2 * bits.length := by
  simp [List.length_flatMap, Nat.mul_comm]

/-- Settles O29: a line is its label, its tokens and a line feed. -/
theorem lineHasTheByteFormat : Obligations.LineHasTheByteFormat := by
  intro i bits hi
  have hline : (Row.mk i bits).line =
      labelBytes i ++ bits.flatMap (fun b => [spaceByte, token b]) ++ [lineFeed] := by
    rw [Row.line, labelWidth_eq, pad_dec hi]
  constructor
  · rw [hline, tokens_eq]
    rfl
  · rw [hline, List.length_append, List.length_append, labelBytes_length, tokens_length, List.length_singleton]

/-- Settles O33, by evaluating the table. -/
theorem geometryOfEverySize : Obligations.GeometryOfEverySize := by
  unfold Obligations.GeometryOfEverySize
  decide

end Sys2Proof.Machine
end

/-! A whole DUMP (R160, R161): the rows one after another, then the completion, or at SIZE 1 rows without end. -/
section
namespace Sys2Proof.Machine

/-- The last row of a grid begins below SIZE, and the grid ends at or above SIZE, inside the store (R159). -/
theorem grid_bounds {s : State} (hlegal : s.size.toNat ∈ legalSizes) (htwo : 2 ≤ s.size.toNat) :
    (s.rows - 1) * s.slide < s.size.toNat ∧ s.size.toNat ≤ s.rows * s.slide ∧ s.rows * s.slide ≤ 256 :=
  (by decide : ∀ n ∈ legalSizes, 2 ≤ n →
    (rowCount n (2 * Nat.log2 n) - 1) * (2 * Nat.log2 n) < n ∧ n ≤ rowCount n (2 * Nat.log2 n) * (2 * Nat.log2 n) ∧
      rowCount n (2 * Nat.log2 n) * (2 * Nat.log2 n) ≤ 256) _ hlegal htwo

/-- With no reset request, the completion is a step of the machine (R157). -/
theorem step_completes {s : State} (hdumping : s.mode = .dumping) (hlegal : s.size.toNat ∈ legalSizes)
    (htwo : 2 ≤ s.size.toNat) (hge : s.size.toNat ≤ s.dumpI.toNat) (hreset : s.resetIn = []) :
    step s = .next ((s.setMode .idle).respond .ok (BitVec.ofNat 32 s.rows)) :=
  (step_of_no_requests hreset).trans (unitStep_completes hdumping hlegal htwo hge)

/-- A completed grid leaves an IDLE unit its text, its DUMP_I and its response, and MODE as it was (R161). -/
theorem completed_eq_answered {s : State} (hidle : s.mode = .idle) (text : List Byte) (i : BitVec 9) (d : Word) :
    ((((s.setMode .dumping).emit text).setDumpI i).setMode .idle).respond .ok d =
      ({ s with dumpI := i, textLog := s.textLog ++ text } : State).answered 0 d := by
  cases s
  cases hidle
  rfl

/-- Settles O34: after the rows of the grid DUMP_I stands at the grid's end, and so the next step is the completion. -/
theorem dumpRendersTheWholeGrid : Obligations.DumpRendersTheWholeGrid := by
  intro s hidle hvalid hlegal htwo hreset
  obtain ⟨hlast, hend, hstore⟩ := grid_bounds hlegal htwo
  have hrows := steps_emit_gridText hlegal hreset s.rows (.inr le_rfl)
  have hoffset : (BitVec.ofNat 9 (s.rows * s.slide)).toNat = s.rows * s.slide := by
    rw [BitVec.toNat_ofNat]
    exact Nat.mod_eq_of_lt (by omega)
  have hrun := steps_succ_last hrows (step_completes rfl hlegal htwo (hend.trans_eq hoffset.symm) hreset)
  rw [completed_eq_answered hidle] at hrun
  exact ⟨_, exec_dump_constructed hidle hvalid, hrun, hlast, hend, hstore⟩

theorem slide_of_size_one {s : State} (hone : s.size.toNat = 1) : s.slide = 0 := by
  rw [State.slide, hone]
  decide

/-- At SIZE 1 every row is `  0` (R160). -/
theorem gridText_of_size_one {s : State} (hone : s.size.toNat = 1) (k : Nat) :
    s.gridText k = (List.replicate k [0x20#8, 0x20#8, 0x30#8, 0x0A#8]).flatten := by
  have hslide := slide_of_size_one hone
  have hline : (s.gridRow 0).line = [0x20#8, 0x20#8, 0x30#8, 0x0A#8] := by
    rw [State.gridRow, hslide]
    rfl
  simp [State.gridText, hslide, hline, List.flatMap_def]

/-- Settles O35: at row width 0 each row leaves DUMP_I at 0, below SIZE. -/
theorem dumpAtSizeOneNeverEnds : Obligations.DumpAtSizeOneNeverEnds := by
  intro s k hidle hvalid hone hreset
  have hslide := slide_of_size_one hone
  have hrun := steps_emit_gridText (hone ▸ by decide) hreset k (.inl hone)
  refine ⟨_, exec_dump_constructed hidle hvalid, ?_, rfl, rfl, rfl, rfl, rfl⟩
  rw [hrun, gridText_of_size_one hone, hslide, Nat.mul_zero]
  rfl

end Sys2Proof.Machine
end

/-! The first failing check (R189): what `firstFailure` is in terms of the checks of the commands, and that a command
reports it. -/
section
namespace Sys2Proof.Machine

/-- An operand is a power of two exactly if it is one of the 16 that its field can carry (R14, R62). -/
theorem isPow2_operand_iff (S : Operand) : isPow2 S.toNat = true ↔ ∃ k ∈ List.range 16, S.toNat = 2 ^ k := by
  rw [isPow2_iff_exists_two_pow]
  constructor
  · rintro ⟨k, hk⟩
    have hlt : k < 16 := (Nat.pow_lt_pow_iff_right (by decide : 1 < 2)).1 (hk ▸ S.isLt)
    exact ⟨k, List.mem_range.2 hlt, hk⟩
  · rintro ⟨k, -, hk⟩
    exact ⟨k, hk⟩

/-- The failure of an operand check: its code and the operand, the datum of R180. -/
def operandFailure (n : Operand) (check : Option Status) : Option (BitVec 3 × Word) :=
  check.map fun e => (e.code, zext32 n)

theorem firstFailure_illegal {w : Word} {why : IllegalReason} (hw : decode w = .illegal why) (s : State) :
    firstFailure w s = some (5, w) := by
  simp [firstFailure, hw]

theorem firstFailure_construct {w : Word} {S : Operand} (hw : decode w = .legal (.construct S)) (s : State) :
    firstFailure w s = operandFailure S (checkSize S) := by
  simp only [firstFailure, hw, ← isPow2_operand_iff]
  rcases checkSize_cases S with ⟨hpow, hcheck⟩ | ⟨hpow, hgt, hcheck⟩ | ⟨hpow, hle, hcheck⟩
  · simp [hcheck, hpow, operandFailure, Status.code, zext32]
  · simp [hcheck, hpow, hgt, operandFailure, Status.code, zext32]
  · simp [hcheck, hpow, hle, operandFailure]

theorem firstFailure_access {w : Word} {i : Instr} {N : Operand} (hw : decode w = .legal i)
    (hi : i = .get N ∨ i = .set N ∨ i = .swap N) (s : State) :
    firstFailure w s = operandFailure N (checkIndex N s) := by
  have hclause : firstFailure w s = if s.valid = false then some (4, N.setWidth 32)
      else if s.size.toNat ≤ N.toNat then some (3, N.setWidth 32) else none := by
    rcases hi with rfl | rfl | rfl <;> simp only [firstFailure, hw]
  rw [hclause]
  rcases checkIndex_cases N s with ⟨hvalid, hcheck⟩ | ⟨hvalid, hN, hcheck⟩ | ⟨hvalid, hN, hcheck⟩
  · simp [hcheck, hvalid, operandFailure, Status.code, zext32]
  · simp [hcheck, hvalid, hN, operandFailure, Status.code, zext32]
  · simp [hcheck, hvalid, hN, operandFailure]

theorem firstFailure_no_operand {w : Word} {i : Instr} (hw : decode w = .legal i) (hi : i = .clear ∨ i = .dump)
    (s : State) : firstFailure w s = if s.valid = false then some (4, 0) else none := by
  rcases hi with rfl | rfl <;> simp only [firstFailure, hw]

/-- From `s` to `t` nothing is answered, or OK once (R189). -/
def AnswersAtMostOk (s t : State) : Prop := t.rspLog = s.rspLog ∨ ∃ d, t.rspLog = s.rspLog ++ [⟨0, d⟩]

/-- An outcome reports the first failing check, if any, and nothing but OK if none fails (R189). -/
structure Reports (failure : Option (BitVec 3 × Word)) (s : State) (r : Result) : Prop where
  failed : ∀ e d, failure = some (e, d) → r = .next (s.answered e d)
  passed : failure = none → ∀ t, r = .next t → AnswersAtMostOk s t

theorem reports_failure (e : BitVec 3) (d : Word) (s : State) : Reports (some (e, d)) s (.next (s.answered e d)) where
  failed _ _ h := by cases h; rfl
  passed := nofun

theorem reports_no_failure {s t : State} (h : AnswersAtMostOk s t) :
    Reports none s (.next t) where
  failed := nofun
  passed _ u hu := by cases hu; exact h

theorem exec_clear_eq {s : State} (hidle : s.mode = .idle) :
    exec .clear s = whenConstructed s 0 (.next (s.zeroWords.respond .ok 0)) :=
  whenIdle_idle hidle _

theorem exec_dump_eq {s : State} (hidle : s.mode = .idle) :
    exec .dump s = whenConstructed s 0 (.next ((s.setMode .dumping).setDumpI 0)) :=
  whenIdle_idle hidle _

theorem reports_construct {s : State} (hidle : s.mode = .idle) (S : Operand) :
    Reports (operandFailure S (checkSize S)) s (exec (.construct S) s) := by
  cases hcheck : checkSize S with
  | some e => rw [exec_construct_refused hidle hcheck]; exact reports_failure ..
  | none => rw [exec_construct_accepted hidle hcheck]; exact reports_no_failure (.inr ⟨0, rfl⟩)

theorem reports_withIndexedWord (N : Operand) {s : State} {effect : Word → State}
    (hok : ∀ w, ∃ d, (effect w).rspLog = s.rspLog ++ [⟨0, d⟩]) :
    Reports (operandFailure N (checkIndex N s)) s (withIndexedWord N s effect) := by
  cases hcheck : checkIndex N s with
  | some e => rw [withIndexedWord_refused hcheck]; exact reports_failure ..
  | none =>
    refine ⟨nofun, fun _ t ht => ?_⟩
    obtain ⟨w, -, rfl⟩ := word?_of_withIndexedWord hcheck ht
    exact .inr (hok w)

theorem reports_whenConstructed {s t : State} (hok : AnswersAtMostOk s t) :
    Reports (if s.valid = false then some (4, 0) else none) s (whenConstructed s 0 (.next t)) := by
  cases hvalid : s.valid with
  | false => rw [whenConstructed_invalid hvalid]; exact reports_failure ..
  | true => rw [whenConstructed_valid hvalid]; exact reports_no_failure hok

/-- Every command word reports its first failing check (R189). -/
theorem acceptWord_reports (w : Word) {s : State} (hidle : s.mode = .idle) :
    Reports (firstFailure w s) s (acceptWord w s) := by
  cases hw : decode w with
  | illegal why =>
    rw [firstFailure_illegal hw, acceptWord_illegal hw]
    exact reports_failure ..
  | legal i =>
    rw [acceptWord_legal hw]
    cases i with
    | construct S => rw [firstFailure_construct hw]; exact reports_construct hidle S
    | get N =>
      rw [firstFailure_access hw (.inl rfl), exec_get_eq hidle]
      exact reports_withIndexedWord N fun _ => ⟨_, rfl⟩
    | set N =>
      rw [firstFailure_access hw (.inr (.inl rfl)), exec_set_eq hidle]
      exact reports_withIndexedWord N fun _ => ⟨_, rfl⟩
    | swap N =>
      rw [firstFailure_access hw (.inr (.inr rfl)), exec_swap_eq hidle]
      exact reports_withIndexedWord N fun _ => ⟨_, rfl⟩
    | clear =>
      rw [firstFailure_no_operand hw (.inl rfl), exec_clear_eq hidle]
      exact reports_whenConstructed (.inr ⟨0, rfl⟩)
    | dump =>
      rw [firstFailure_no_operand hw (.inr rfl), exec_dump_eq hidle]
      exact reports_whenConstructed (.inl rfl)

/-- Settles O37: `firstFailure` is the illegal word, the size check, the index check or the missing instance, whichever
the command has, and each of them is reported. -/
theorem firstFailingCheckIsReported : Obligations.FirstFailingCheckIsReported := fun w _ hidle =>
  ⟨(acceptWord_reports w hidle).failed, (acceptWord_reports w hidle).passed⟩

end Sys2Proof.Machine
end

/-! Errors (R182, R183, R184): an error is a response and nothing else, so the next command meets the registers it would
have met; and which statuses there are. -/
section
namespace Sys2Proof.Machine

/-- An accepted word that answers an error only answers (R183). -/
theorem Accepted.eq_answered_of_error {w : Word} {s t : State} {r : Response} (h : Accepted w s t)
    (hlog : t.rspLog = s.rspLog ++ [r]) (herror : r.status ≠ 0) : t = s.answered r.status r.data := by
  cases h with
  | answer st d =>
    obtain rfl : ⟨st.code, d⟩ = r := by simpa using hlog
    rfl
  | construct | write | clear =>
    obtain rfl : ⟨0, 0⟩ = r := by simpa [Status.code] using hlog
    exact absurd rfl herror
  | dump => simp at hlog

/-- The renderer answers, if at all, OK and at a size other than 1 (R157, R160). -/
theorem Rendered.silent_or_ok {s t : State} (h : Rendered s t) :
    t.rspLog = s.rspLog ∨ s.size.toNat ≠ 1 ∧ t.rspStatus = 0 ∧ ∃ d, t.rspLog = s.rspLog ++ [⟨0, d⟩] := by
  cases h with
  | row => exact .inl rfl
  | done d _ hslide => exact .inr ⟨fun hone => hslide (slide_of_size_one hone), rfl, d, rfl⟩

/-- Settles O38: of the unit's moves only an accepted word answers an error, and then it only answers. -/
theorem errorsChangeOnlyTheResponse : Obligations.ErrorsChangeOnlyTheResponse := by
  intro s t r h hlog herror
  cases unitMove_of_unitStep h with
  | wait => simp at hlog
  | accept _ _ heffect => exact heffect.eq_answered_of_error hlog herror
  | render _ heffect =>
    rcases heffect.silent_or_ok with hsilent | ⟨-, -, d, hok⟩
    · simp [hsilent] at hlog
    · obtain rfl : ⟨0, d⟩ = r := by simpa [hok] using hlog
      exact absurd rfl herror

/-- `t` is `s` but for the last response and the response log, and the host's side (R29, R30). -/
structure SameUnit (s t : State) : Prop extends SameInstance s t where
  words : t.words = s.words
  dumpI : t.dumpI = s.dumpI
  text : t.textLog = s.textLog

/-- If the outcome `a` from `s` goes on, so does the outcome `b` from `t`, with the same pairs added to the response log
and the same unit (R184). -/
def CompletesAlike (s t : State) (a b : Result) : Prop :=
  ∀ v, a = .next v →
    ∃ u rs, b = .next u ∧ v.rspLog = s.rspLog ++ rs ∧ u.rspLog = t.rspLog ++ rs ∧
      (rs ≠ [] → u.rspStatus = v.rspStatus ∧ u.rspData = v.rspData) ∧
      u.valid = v.valid ∧ u.size = v.size ∧ u.words = v.words ∧ u.mode = v.mode ∧ u.dumpI = v.dumpI ∧
      u.textLog = v.textLog

/-- The same response after changes that touch no log. -/
theorem completesAlike_respond {s t s' t' : State} (h : SameUnit s' t') (hs : s'.rspLog = s.rspLog)
    (ht : t'.rspLog = t.rspLog) (st : Status) (d : Word) :
    CompletesAlike s t (.next (s'.respond st d)) (.next (t'.respond st d)) := by
  intro v hv
  cases hv
  exact ⟨_, [⟨st.code, d⟩], rfl, by simp [hs], by simp [ht], fun _ => ⟨rfl, rfl⟩, h.valid, h.size, h.words, h.mode,
    h.dumpI, h.text⟩

theorem completesAlike_withIndexedWord {s t : State} (h : SameUnit s t) (N : Operand) {f g : Word → State}
    (hfg : ∀ w, CompletesAlike s t (.next (f w)) (.next (g w))) :
    CompletesAlike s t (withIndexedWord N s f) (withIndexedWord N t g) := by
  have hcongr := checkIndex_congr h.valid h.size N
  cases hcheck : checkIndex N s with
  | some e =>
    rw [withIndexedWord_refused hcheck, withIndexedWord_refused (hcongr.trans hcheck)]
    exact completesAlike_respond h rfl rfl e _
  | none =>
    intro v hv
    obtain ⟨w, hword, rfl⟩ := word?_of_withIndexedWord hcheck hv
    have hword' : t.word? (wordIndex N.toNat) = some w := by rw [word?_eq, h.words]; exact hword
    have hg : withIndexedWord N t g = .next (g w) := by simp [withIndexedWord, hcongr, hcheck, hword']
    rw [hg]
    exact hfg w _ rfl

theorem completesAlike_whenConstructed {s t : State} (h : SameUnit s t) {a b : Result}
    (hab : CompletesAlike s t a b) : CompletesAlike s t (whenConstructed s 0 a) (whenConstructed t 0 b) := by
  cases hvalid : s.valid with
  | false =>
    rw [whenConstructed_invalid hvalid, whenConstructed_invalid (h.valid.trans hvalid)]
    exact completesAlike_respond h rfl rfl _ _
  | true => rwa [whenConstructed_valid hvalid, whenConstructed_valid (h.valid.trans hvalid)]

theorem SameUnit.setWord {s t : State} (h : SameUnit s t) (k : Nat) (v : Word) :
    SameUnit (s.setWord k v) (t.setWord k v) :=
  { h with words := by simp [h.words] }

theorem SameUnit.zeroWords {s t : State} (h : SameUnit s t) : SameUnit s.zeroWords t.zeroWords :=
  { h with words := rfl }

theorem SameUnit.setInstance {s t : State} (h : SameUnit s t) (n : BitVec 9) :
    SameUnit (s.setInstance n) (t.setInstance n) :=
  { h with valid := rfl, size := rfl }

/-- No command reads the last response or a log (R184). -/
theorem exec_completesAlike {s t : State} (h : SameUnit s t) (hidle : s.mode = .idle) (i : Instr) :
    CompletesAlike s t (exec i s) (exec i t) := by
  have hidle' : t.mode = .idle := h.mode.trans hidle
  cases i with
  | construct S =>
    cases hcheck : checkSize S with
    | some e =>
      rw [exec_construct_refused hidle hcheck, exec_construct_refused hidle' hcheck]
      exact completesAlike_respond h rfl rfl _ _
    | none =>
      rw [exec_construct_accepted hidle hcheck, exec_construct_accepted hidle' hcheck]
      exact completesAlike_respond (h.setInstance _).zeroWords rfl rfl _ _
  | get N =>
    rw [exec_get_eq hidle, exec_get_eq hidle']
    exact completesAlike_withIndexedWord h N fun _ => completesAlike_respond h rfl rfl _ _
  | set N =>
    rw [exec_set_eq hidle, exec_set_eq hidle']
    exact completesAlike_withIndexedWord h N fun _ => completesAlike_respond (h.setWord ..) rfl rfl _ _
  | swap N =>
    rw [exec_swap_eq hidle, exec_swap_eq hidle']
    exact completesAlike_withIndexedWord h N fun _ => completesAlike_respond (h.setWord ..) rfl rfl _ _
  | clear =>
    rw [exec_clear_eq hidle, exec_clear_eq hidle']
    exact completesAlike_whenConstructed h (completesAlike_respond h.zeroWords rfl rfl _ _)
  | dump =>
    rw [exec_dump_eq hidle, exec_dump_eq hidle']
    refine completesAlike_whenConstructed h fun v hv => ?_
    cases hv
    exact ⟨_, [], rfl, by simp, by simp, fun hne => absurd rfl hne, h.valid, h.size, h.words, rfl, rfl, h.text⟩

/-- Settles O39: the failed word only answered, and no command reads what an answer writes. -/
theorem errorsAreNotSticky : Obligations.ErrorsAreNotSticky := by
  intro w i s t r hidle h hlog herror
  obtain rfl := (accepted_of_acceptWord hidle h).eq_answered_of_error hlog herror
  have hsame : SameUnit s (s.answered r.status r.data) := ⟨⟨rfl, rfl, rfl⟩, rfl, rfl, rfl⟩
  exact ⟨hidle, exec_completesAlike hsame hidle i⟩

/-- The statuses of an index access whose effect answers OK (R103, R182). -/
theorem rspStatus_of_withIndexedWord {N : Operand} {s t : State} {effect : Word → State}
    (h : withIndexedWord N s effect = .next t) (hok : ∀ w, (effect w).rspStatus = 0) :
    t.rspStatus = 0 ∨ t.rspStatus = 4 ∨ t.rspStatus = 3 := by
  rcases withIndexedWord_cases N s effect with ⟨-, hr⟩ | ⟨-, -, hr⟩ | ⟨-, -, k, -, hr⟩ | ⟨-, -, -, hr⟩ <;>
    rw [hr] at h <;> cases h
  · exact .inr (.inl rfl)
  · exact .inr (.inr rfl)
  · exact .inl (hok _)

theorem rspStatus_of_exec_construct {S : Operand} {s t : State} (hidle : s.mode = .idle)
    (h : exec (.construct S) s = .next t) : t.rspStatus = 0 ∨ t.rspStatus = 1 ∨ t.rspStatus = 2 := by
  rcases checkSize_cases S with ⟨-, hcheck⟩ | ⟨-, -, hcheck⟩ | ⟨-, -, hcheck⟩
  · rw [exec_construct_refused hidle hcheck] at h; cases h
    exact .inr (.inl rfl)
  · rw [exec_construct_refused hidle hcheck] at h; cases h
    exact .inr (.inr rfl)
  · rw [exec_construct_accepted hidle hcheck] at h; cases h
    exact .inl rfl

/-- Settles O40: by the answers of each command's checks, by what the renderer answers, and by the answer to an illegal
word. -/
theorem statusesOfEachCommand : Obligations.StatusesOfEachCommand := by
  refine ⟨fun i s t hidle h => ?_, fun s t hdumping h => ?_, fun w s ⟨why, hw⟩ => ⟨_, acceptWord_illegal hw s, rfl⟩⟩
  · cases i with
    | construct S => exact rspStatus_of_exec_construct hidle h
    | get N => rw [exec_get_eq hidle] at h; exact rspStatus_of_withIndexedWord h fun _ => rfl
    | set N => rw [exec_set_eq hidle] at h; exact rspStatus_of_withIndexedWord h fun _ => rfl
    | swap N => rw [exec_swap_eq hidle] at h; exact rspStatus_of_withIndexedWord h fun _ => rfl
    | clear =>
      cases hvalid : s.valid with
      | false => rw [exec_clear_not_constructed hidle hvalid] at h; cases h; exact .inr rfl
      | true => rw [exec_clear_constructed hidle hvalid] at h; cases h; exact .inl rfl
    | dump =>
      cases hvalid : s.valid with
      | false => rw [exec_dump_not_constructed hidle hvalid] at h; cases h; exact .inr rfl
      | true => rw [exec_dump_constructed hidle hvalid] at h; cases h; exact .inl rfl
  · exact (rendered_of_unitStep hdumping h).silent_or_ok.imp id fun ⟨hsize, hok, _⟩ => ⟨hsize, hok⟩

end Sys2Proof.Machine
end

/-! Before the first CONSTRUCT (R186, R213), and a due reset (R210, R221). -/
section
namespace Sys2Proof.Machine

/-- Without an instance a command but CONSTRUCT fails the instance check (R186). -/
theorem firstFailure_not_constructed {i : Instr} {s : State} (hvalid : s.valid = false)
    (hi : ∀ S, i ≠ .construct S) : ∃ d, firstFailure (encode i) s = some (4, d) := by
  cases i with
  | construct S => exact absurd rfl (hi S)
  | get | set | swap | clear | dump => simp [firstFailure, decode_encode, hvalid]

theorem exec_not_constructed {i : Instr} {s : State} (hidle : s.mode = .idle) (hvalid : s.valid = false)
    (hi : ∀ S, i ≠ .construct S) : ∃ d, exec i s = .next (s.answered 4 d) := by
  obtain ⟨d, hfail⟩ := firstFailure_not_constructed hvalid hi
  exact ⟨d, (acceptWord_legal (decode_encode i) s).symm.trans ((acceptWord_reports _ hidle).failed _ _ hfail)⟩

/-- Settles O53, by induction on the list: an answer leaves the unit IDLE and without an instance. -/
theorem nothingWorksBeforeConstruct : Obligations.NothingWorksBeforeConstruct := by
  intro cmds
  induction cmds with
  | nil =>
    intro s hidle hvalid _
    exact ⟨s, [], execAll_nil s, by simp, rfl, by simp, hvalid, rfl, rfl, hidle⟩
  | cons i is ih =>
    intro s hidle hvalid hcmds
    obtain ⟨hi, his⟩ := List.forall_mem_cons.1 hcmds
    obtain ⟨d, hexec⟩ := exec_not_constructed hidle hvalid hi
    obtain ⟨t, rs, ht, hlog, hlength, hstatus, hrest⟩ := ih (s.answered 4 d) hidle hvalid his
    refine ⟨t, ⟨4, d⟩ :: rs, (execAll_cons hexec is).trans ht, ?_, by simp [hlength], ?_, hrest⟩
    · rw [hlog, State.answered, List.append_assoc, List.singleton_append]
    · exact List.forall_mem_cons.2 ⟨rfl, hstatus⟩

/-- Settles O51: of the two things a step can be, only the reset meets a due request. -/
theorem resetTakesTheStepWhenDue : Obligations.ResetTakesTheStepWhenDue := by
  intro s later hdue
  rcases step_cases s with ⟨later', hr, hstep⟩ | ⟨hnot, -⟩
  · obtain rfl : later' = later := by simpa [hdue, eq_comm] using hr
    exact hstep
  · simp [hdue] at hnot

end Sys2Proof.Machine
end

/-! A finished run (R224), and what RESET writes (R210, R221). -/
section
namespace Sys2Proof.Machine

/-- With nothing presented an IDLE unit waits (R224). -/
theorem unitStep_of_nothing_presented {s : State} (hidle : s.mode = .idle) (hnone : s.presented = none) :
    unitStep s = .next s := by
  simp [unitStep, acceptStep, hidle, hnone]

/-- Settles O44: without a reset request the step is the unit's, and to an exhausted list that is waiting. -/
theorem finishedRunStays : Obligations.FinishedRunStays := by
  intro s ⟨hexhausted, hidle⟩ hreset
  rw [step_of_no_requests hreset]
  exact unitStep_of_nothing_presented hidle ((presented_eq_none_iff s).2 hexhausted)

/-- Settles O49, register by register; the words are those of the state at the start of a run. -/
theorem resetWritesEveryRegister : Obligations.ResetWritesEveryRegister := fun s =>
  ⟨resetUnit_valid s, resetUnit_size s, reset_words, resetUnit_mode s, resetUnit_dumpI s, resetUnit_rspStatus s,
    resetUnit_rspData s, resetUnit_rspLog s, resetUnit_textLog s, resetUnit_program s, resetUnit_pc s⟩

end Sys2Proof.Machine
end

/-! A grid cut by a reset (R221): a request that is not due leaves the rows as they are, and falls between lines. -/
section
namespace Sys2Proof.Machine

/-- Between two rows of a grid: `k` rows of an accepted DUMP are emitted, and DUMP_I stands at the next one. -/
def State.afterRows (s : State) (k : Nat) : State :=
  ((s.setMode .dumping).emit (s.gridText k)).setDumpI (BitVec.ofNat 9 (k * s.slide))

/-- No row is emitted where DUMP is accepted (R154). -/
theorem afterRows_zero (s : State) : s.afterRows 0 = (s.setMode .dumping).setDumpI 0 := by
  rw [State.afterRows, gridText_zero, emit_nil, Nat.zero_mul]
  rfl

/-- One row further is one step of the unit, whatever reset requests wait (R155, R156). -/
theorem unitStep_afterRows {s : State} {k : Nat} (hlegal : s.size.toNat ∈ legalSizes)
    (hk : s.size.toNat = 1 ∨ k < s.rows) : unitStep (s.afterRows k) = .next (s.afterRows (k + 1)) := by
  obtain ⟨hlt, hrow⟩ := row_bounds hlegal hk
  have hoffset : (s.afterRows k).dumpI.toNat = k * s.slide := by
    rw [State.afterRows, setDumpI_dumpI, BitVec.toNat_ofNat]
    exact Nat.mod_eq_of_lt (by omega)
  rw [unitStep_emits_gridRow (s := s.afterRows k) rfl hlegal hoffset hlt hrow, State.afterRows, State.afterRows,
    gridText_succ, ← emit_emit, Nat.succ_mul]
  rfl

/-- A request that is not due comes one step nearer, and the step is the unit's (log 2). -/
theorem step_of_request_not_due (s : State) (d : Nat) (later : List Nat) :
    step (s.setResetIn ((d + 1) :: later)) = unitStep (s.setResetIn (d :: later)) := rfl

/-- With the next request `k` or more steps away, `k` steps from the acceptance of a DUMP on emit the first `k` rows. -/
theorem steps_afterRows {s : State} (hlegal : s.size.toNat ∈ legalSizes) (later : List Nat) :
    ∀ k d, (s.size.toNat = 1 ∨ k ≤ s.rows) →
      steps k ((s.setResetIn ((d + k) :: later)).afterRows 0) = .next ((s.setResetIn (d :: later)).afterRows k)
  | 0, _, _ => rfl
  | k + 1, d, hk => by
    have hrun := steps_afterRows hlegal later k (d + 1) (hk.imp_right Nat.le_of_succ_le)
    have hlast := unitStep_afterRows (s := s.setResetIn (d :: later)) hlegal (hk.imp_right Nat.lt_of_succ_le)
    rw [Nat.succ_add_eq_add_succ] at hrun
    exact steps_succ_last hrun ((step_of_request_not_due (s.afterRows k) d later).trans hlast)

/-- Settles O52: after `k` rows the request is due, and RESET keeps of the grid only its text. -/
theorem resetCutsTheGridAtALine : Obligations.ResetCutsTheGridAtALine := by
  intro s k hidle hvalid hlegal hk hreset
  have hrows := steps_afterRows hlegal [] k 0 hk
  have hs : s.setResetIn [0 + k] = s := by rw [Nat.zero_add, ← hreset]; rfl
  rw [hs, afterRows_zero] at hrows
  exact ⟨_, exec_dump_constructed hidle hvalid, steps_succ_last hrows (resetTakesTheStepWhenDue _ [] rfl)⟩

end Sys2Proof.Machine
end
